-- ==== Sys2Proof/Word.lean ====
section
/-! DEFINITION. The word, byte and register-number types of RiSC-32 (00_scope.md R8, R10, R11; 10_state.md R100). -/

namespace Sys2Proof

/-- A `Word32`: an unsigned 32-bit pattern; `+` and `-` wrap modulo 2^32 (R11). -/
abbrev Word := BitVec 32

/-- One byte: a cell of the memory list, and the unit the TTY moves (R625). -/
abbrev Byte := BitVec 8

/-- The number of a general register, x[0] to x[31] (R100). -/
abbrev Reg := Fin 32

end Sys2Proof
end

