-- ==== Sys2Proof/Syntax.lean ====
section
/-! DEFINITION. The instructions of RiSC-32, one constructor per row of spec/opcode_table.json
(30_encoding.md R308). The fields are the decoded fields of R16 and R305: register numbers, the
sign-extended `i17` and the zero-extended `i22`, both as 32-bit words. -/

namespace Sys2Proof

/-- "Exactly these" eleven opcodes (R308), each with the fields its format gives it (R309). -/
inductive Instr where
  /-- op 0, RRI layout: jump and link, halt, or software trap (R420). -/
  | jalr (rA rB : Reg) (i17 : Word)
  /-- op 1, RRR (R440). -/
  | add (rA rB rC : Reg)
  /-- op 2, RRI (R441). -/
  | addi (rA rB : Reg) (i17 : Word)
  /-- op 3, RRR (R442). -/
  | nand (rA rB rC : Reg)
  /-- op 4, RI (R443). -/
  | lui (rA : Reg) (i22 : Word)
  /-- op 5, RRI (R460). -/
  | sw (rA rB : Reg) (i17 : Word)
  /-- op 6, RRI (R461). -/
  | lw (rA rB : Reg) (i17 : Word)
  /-- op 7, RRI (R421). -/
  | beq (rA rB : Reg) (i17 : Word)
  /-- op 8, RI (R480). -/
  | wsr (rA : Reg) (i22 : Word)
  /-- op 9, RI (R481). -/
  | rsr (rA : Reg) (i22 : Word)
  /-- op 10: no operands, bits 26..0 ignored (R309, R482). -/
  | iret
  deriving DecidableEq, Repr

end Sys2Proof
end

