-- ==== Sys2Proof/WellFormed.lean ====
section
/-! DEFINITION. Which terms of `Instr` are instructions of the hardware: their immediates lie in the
ranges of 30_encoding.md R306 and R307, so that a word holds them. -/

namespace Sys2Proof

/-- `i17` lies in [0, 0xFFFF] or in [0xFFFF0000, 0xFFFFFFFF]: it is a 17-bit number sign-extended (R306). -/
def i17InRange (i17 : Word) : Bool :=
  decide (i17.toNat ≤ 0xFFFF) || decide (0xFFFF0000 ≤ i17.toNat)

/-- `i22` lies in [0, 2^22-1] (R307). -/
def i22InRange (i22 : Word) : Bool :=
  decide (i22.toNat < 2 ^ 22)

/-- The operands of the instruction are values its encoding can hold. -/
def Instr.wf : Instr → Bool
  | .jalr _ _ i17 => i17InRange i17
  | .add _ _ _ => true
  | .addi _ _ i17 => i17InRange i17
  | .nand _ _ _ => true
  | .lui _ i22 => i22InRange i22
  | .sw _ _ i17 => i17InRange i17
  | .lw _ _ i17 => i17InRange i17
  | .beq _ _ i17 => i17InRange i17
  | .wsr _ i22 => i22InRange i22
  | .rsr _ i22 => i22InRange i22
  | .iret => true

/-- A well-formed instruction. -/
abbrev Instr.WellFormed (i : Instr) : Prop := i.wf = true

end Sys2Proof
end

