-- ==== Sys2Proof/Decode.lean ====
section
/-! DEFINITION. Splitting a word into its fields, decoding it, rejecting the reserved opcodes by name,
and encoding an instruction (30_encoding.md R301 to R312). -/

namespace Sys2Proof

/-- All six fields of a word, whatever its opcode (R16, R305). -/
structure Fields where
  op  : BitVec 5
  rA  : Reg
  rB  : Reg
  rC  : Reg
  i17 : Word
  i22 : Word
  deriving DecidableEq, Repr

/-- `w[31:27]` (R301). -/
def opField (w : Word) : BitVec 5 := w.extractLsb' 27 5

/-- The 5-bit register field whose lowest bit is `lo`: rA at 22, rB at 17, rC at 0 (R302 to R304). -/
def regField (w : Word) (lo : Nat) : Reg := (w.extractLsb' lo 5).toFin

/-- `sext_17(w[16:0])`: bit 16 copied into bits 31..17 (R12, R305). -/
def i17Field (w : Word) : Word := (w.extractLsb' 0 17).signExtend 32

/-- `zext_22(w[21:0])` (R12, R305). -/
def i22Field (w : Word) : Word := (w.extractLsb' 0 22).setWidth 32

/-- R305: decode splits every word into all six fields at once. -/
def splitFields (w : Word) : Fields where
  op := opField w
  rA := regField w 22
  rB := regField w 17
  rC := regField w 0
  i17 := i17Field w
  i22 := i22Field w

/-- Why a word has no instruction. -/
inductive DecodeError where
  /-- Opcodes 11 to 31 are reserved (R310). The step turns this into the fault `illegalOpcode`. -/
  | reservedOpcode (op : BitVec 5)
  deriving DecidableEq, Repr

/-- The opcode map of R308, as R403 dispatches on it. Bits an opcode does not use are not looked at (R309). -/
def decodeFields (f : Fields) : Except DecodeError Instr :=
  match f.op.toNat with
  | 0 => .ok (.jalr f.rA f.rB f.i17)
  | 1 => .ok (.add f.rA f.rB f.rC)
  | 2 => .ok (.addi f.rA f.rB f.i17)
  | 3 => .ok (.nand f.rA f.rB f.rC)
  | 4 => .ok (.lui f.rA f.i22)
  | 5 => .ok (.sw f.rA f.rB f.i17)
  | 6 => .ok (.lw f.rA f.rB f.i17)
  | 7 => .ok (.beq f.rA f.rB f.i17)
  | 8 => .ok (.wsr f.rA f.i22)
  | 9 => .ok (.rsr f.rA f.i22)
  | 10 => .ok .iret
  | _ => .error (.reservedOpcode f.op)

/-- The decoder: total on every word, rejecting the reserved opcodes by name (R305, R308, R310). -/
def decode (w : Word) : Except DecodeError Instr :=
  decodeFields (splitFields w)

/-- The opcode number of each instruction (R308). -/
def Instr.opcode : Instr → BitVec 5
  | .jalr _ _ _ => 0
  | .add _ _ _ => 1
  | .addi _ _ _ => 2
  | .nand _ _ _ => 3
  | .lui _ _ => 4
  | .sw _ _ _ => 5
  | .lw _ _ _ => 6
  | .beq _ _ _ => 7
  | .wsr _ _ => 8
  | .rsr _ _ => 9
  | .iret => 10

/-- The opcode in bits 31..27 and rA in bits 26..22: the part all three formats share (R302 to R304). -/
def encodeHead (op : BitVec 5) (rA : Reg) : Word :=
  (op.setWidth 32 <<< 27) ||| (BitVec.ofNat 32 rA.val <<< 22)

/-- `encode_RRR(op, rA, rB, rC)`; the 12 unused bits are emitted as zero (R302, R311). -/
def encodeRRR (op : BitVec 5) (rA rB rC : Reg) : Word :=
  encodeHead op rA ||| (BitVec.ofNat 32 rB.val <<< 17) ||| BitVec.ofNat 32 rC.val

/-- `encode_RRI(op, rA, rB, imm)`, the immediate masked to 17 bits (R303, R311). -/
def encodeRRI (op : BitVec 5) (rA rB : Reg) (imm : Word) : Word :=
  encodeHead op rA ||| (BitVec.ofNat 32 rB.val <<< 17) ||| (imm &&& 0x1FFFF)

/-- `encode_RI(op, rA, imm)`, the immediate masked to 22 bits (R304, R311). -/
def encodeRI (op : BitVec 5) (rA : Reg) (imm : Word) : Word :=
  encodeHead op rA ||| (imm &&& 0x3FFFFF)

/-- The word of an instruction, in its format of R308. IRET is emitted with rA = 0 and imm22 = 0 (R337). -/
def encode (i : Instr) : Word :=
  match i with
  | .jalr rA rB i17 => encodeRRI i.opcode rA rB i17
  | .add rA rB rC => encodeRRR i.opcode rA rB rC
  | .addi rA rB i17 => encodeRRI i.opcode rA rB i17
  | .nand rA rB rC => encodeRRR i.opcode rA rB rC
  | .lui rA i22 => encodeRI i.opcode rA i22
  | .sw rA rB i17 => encodeRRI i.opcode rA rB i17
  | .lw rA rB i17 => encodeRRI i.opcode rA rB i17
  | .beq rA rB i17 => encodeRRI i.opcode rA rB i17
  | .wsr rA i22 => encodeRI i.opcode rA i22
  | .rsr rA i22 => encodeRI i.opcode rA i22
  | .iret => encodeRI i.opcode 0 0

/-- A valid word of R312 and 90_conflicts.md C8: an opcode up to 10, and zero in every bit its format does
not use (bits 16..5 of ADD and NAND, bits 26..0 of IRET). -/
def validWord (w : Word) : Bool :=
  match (opField w).toNat with
  | 1 | 3 => w.extractLsb' 5 12 == 0
  | 10 => w.extractLsb' 0 27 == 0
  | n => decide (n ≤ 10)

/-- The instruction the decoder reads from an instruction whose `nbits` bits are `w`, numbered as
spec/opcode_table.json numbers them: bit 0 is the least significant bit of the one word. -/
def decodeTableWord (nbits w : Nat) : Option Instr :=
  (decode (BitVec.ofNat 32 (w % 2 ^ nbits))).toOption

end Sys2Proof
end

