-- ==== Sys2Proof/Config.lean ====
section
/-! DEFINITION. The free values of the model: what the host's clock and the TTY device answer
(the OPEN parameters `now` and `TtyProbe` of 00_scope.md R9; 92_eei_decisions.md D17, D19). -/

namespace Sys2Proof

/-- The answer of the TTY device to one probe (60_exceptions.md R626). -/
inductive TtyAnswer where
  | pending
  | notPending
  | error
  deriving DecidableEq, Repr, Inhabited

/-- The three registers of the TTY device (10_state.md R118). -/
structure TtyRegs where
  /-- The status register at 0x20001: bit 0 TTYIn, bit 1 TTYOut (R625). -/
  status : Word
  /-- The input register at 0x20002. -/
  inReg  : Word
  /-- The output register at 0x20003. -/
  outReg : Word
  deriving DecidableEq, Repr, Inhabited

/-- What the device does at one probe: its answer, and the values it wants in its registers. The step
applies the protocol of R626 to them (`probedRegs`, Machine/Poll.lean). -/
structure TtyReply where
  answer : TtyAnswer
  regs   : TtyRegs
  deriving DecidableEq, Repr, Inhabited

/-- FREE VALUE: the nanoseconds that pass before the `k`-th time draw of the run, when the host has
scheduled no draw of its own (`State.nowSteps`). An increment, so that `now` never decreases
(D17; notes/assumptions/3.md). -/
opaque Config.nowStep : Nat → Nat

/-- FREE VALUE: what the TTY device does at the `k`-th probe of the run, given its registers, when the
host has scheduled no reply (`State.ttyReplies`) (D19; notes/assumptions/4.md). -/
opaque Config.ttyReply : Nat → TtyRegs → TtyReply

end Sys2Proof
end

