-- ==== Sys2Proof/Machine/State.lean ====
section
/-! DEFINITION. The state of the machine, why a step can stop, and the state after reset
(10_state.md R100 to R123, 60_exceptions.md R600 to R602, 70_reset_and_hazards.md R700). -/

namespace Sys2Proof.Machine

/-- Physical memory M (R120) as bytes: cell `4 * p + k` is byte `k` of word M[p], byte 0 the least
significant (notes/assumptions/1.md). The canonical form is `Memory.wf` (Machine/Memory.lean). -/
abbrev Memory := List Host.Cell

/-- The run status of R121. `Faulted(kind, a)` is the outcome `Host.Outcome.fault`, which carries kind and a
(notes/assumptions/6.md), so a state is `running` or `halted`. -/
inductive RunStatus where
  | running
  /-- The successful terminal outcome of R406. -/
  | halted
  deriving DecidableEq, Repr

/-- The state the spec gives the machine (10_state.md), and the host's inputs to it (R9, R630). -/
structure State where
  /-- x[0] to x[31] (R100). x[0] is forced to 0 by the step, not by the register write (R101, R404). -/
  x : Vector Word 32
  /-- The program counter, a word address (R105). -/
  pc : Word
  /-- S[0] to S[3] (R110 to R114). -/
  sr : Vector Word 4
  /-- The saved pc (R115). -/
  ipc : Word
  /-- The saved S[0] (R115). -/
  is0 : Word
  /-- The saved x[29] (R115). -/
  isp : Word
  /-- CF, the clock period in milliseconds; 0 disables the clock (R116). -/
  cf : Word
  /-- LTR in nanoseconds; `none` is the spec's own `unset` (R117, D17, D18). -/
  ltr : Option Nat
  /-- `TTY_ATTACHED`: set by the host before the run, changed by no step (R9, R630). -/
  ttyAttached : Bool
  /-- The TTY registers; reachable only when `ttyAttached` (R118). -/
  tty : TtyRegs
  /-- Physical memory M (R120). -/
  mem : Memory
  /-- The run status (R121). -/
  status : RunStatus
  /-- MODEL'S OWN: the host's time at its last draw, in nanoseconds (R9 `now`, D17). -/
  hostNow : Nat
  /-- MODEL'S OWN: the time increments the host has scheduled for the next draws; past its end the free
  value `Config.nowStep` is drawn. -/
  nowSteps : List Nat
  /-- MODEL'S OWN: how many time draws were made; the argument of `Config.nowStep`. -/
  nowDraws : Nat
  /-- MODEL'S OWN: the replies the host has scheduled for the next TTY probes; past its end the free value
  `Config.ttyReply` is drawn (R9 `TtyProbe`, D19). -/
  ttyReplies : List TtyReply
  /-- MODEL'S OWN: how many TTY probes were made; the argument of `Config.ttyReply`. -/
  ttyProbes : Nat
  deriving DecidableEq, Repr

/-- The causes the source groups under NotPermitted (R601 F1 to F4). -/
inductive NotPermittedCause where
  /-- F1: WSR or RSR while S0.UserMode = 1 (R480, R481). -/
  | statusRegisterInUserMode
  /-- F2: WSR or RSR with i22 >=u 4 (R480, R481). -/
  | badStatusIndex
  /-- F3: IRET while S0.UserMode = 1 (R482). -/
  | iretInUserMode
  /-- F4: a paged access whose entry lacks a requested flag (R211). -/
  | pageFlag
  deriving DecidableEq, Repr

/-- The causes grouped under Segfault (R601 F5 to F10). -/
inductive SegfaultCause where
  /-- F5: a paged access with S[1] not a multiple of 1024 (R208). -/
  | pageTableBaseMisaligned
  /-- F6: a page-table entry index `s[1] + (addr >> 10) >=u 2^20` (R209). -/
  | pageTableIndexOutOfRange
  /-- F7: a physical address `>=u 2^20` (R213). -/
  | physicalOutOfRange
  /-- F8: interrupt entry with S[2] not a multiple of 1024 (R607). -/
  | vectorBaseMisaligned
  /-- F9: interrupt entry with S[3] not a multiple of 1024 (R607). -/
  | interruptStackMisaligned
  /-- F10: a vector lookup `s[2] + code >=u 2^20` (R607). -/
  | vectorOutOfRange
  deriving DecidableEq, Repr

/-- What an operation raises: the kind, with its cause as the `info` of R15. Where the instruction stands is
added by whoever runs the operation (`Raise.toFault`). -/
inductive Raise where
  | notPermitted (why : NotPermittedCause)
  | segfault (why : SegfaultCause)
  /-- F12: the TTY probe answered Error (R613). -/
  | deviceError
  deriving DecidableEq, Repr

/-- The fatal faults of R600, each with the record of R602: the address `a` of the instruction whose step
raised it, and the fetched word when there is one. All are safe: the spec itself ends the run here, and the
model makes no state after a fault. -/
inductive Fault where
  /-- Raised by WSR, RSR and IRET in user mode, by WSR and RSR with a bad index, and by a paged fetch, LW or SW
  without the page's flag (R601 F1 to F4). Safe. -/
  | notPermitted (why : NotPermittedCause) (a : Word) (w : Option Word)
  /-- Raised by fetch, LW and SW on their address, and by interrupt entry (trap or poll) on its bases and its
  vector (R601 F5 to F10). Safe. -/
  | segfault (why : SegfaultCause) (a : Word) (w : Option Word)
  /-- Raised by the step on a word whose opcode is 11 to 31 (R310, F11). Safe. -/
  | illegalOpcode (a : Word) (w : Word)
  /-- Raised by the poll when the TTY probe answers Error (R613, F12). Safe. -/
  | deviceError (a : Word) (w : Option Word)
  deriving DecidableEq, Repr

/-- Why no step is taken at all. -/
inductive Refusal where
  /-- Raised by `exec`'s arm of an instruction that has no meaning yet. No arm does (safe). -/
  | notModelled (mnemonic : String)
  /-- Raised by `step` when the run is over: a step asked for after Halted does not run and changes nothing
  (R400, 93_implementation_defined.md U16). Safe. -/
  | runOver
  deriving DecidableEq, Repr

/-- The state after reset (R700), with an empty IMAGE, no TTY attached and nothing scheduled by the host
(notes/assumptions/2.md, 5.md). `bootState` (Machine/Ops.lean) is the same with an image and a TTY. -/
def State.reset : State where
  x := Vector.replicate 32 0
  pc := 0
  sr := Vector.replicate 4 0
  ipc := 0
  is0 := 0
  isp := 0
  cf := 0
  ltr := none
  ttyAttached := false
  tty := { status := 0, inReg := 0, outReg := 0 }
  mem := []
  status := .running
  hostNow := 0
  nowSteps := []
  nowDraws := 0
  ttyReplies := []
  ttyProbes := 0

end Sys2Proof.Machine
end

