-- ==== Sys2Proof/Machine/Memory.lean ====
section
/-! DEFINITION. Reading and writing physical memory M, the canonical form of its list, and the direct
physical read (10_state.md R120, 20_memory.md R201, R225). -/

namespace Sys2Proof.Machine

/-- MEM_WORDS, the number of physical words: 2^20 (R8, R120). -/
def memWords : Nat := 2 ^ 20

/-- What a byte of memory that nothing has written reads as: `M[p] = 0` for every word outside the image (R120). -/
def unlistedByte : Byte := 0

/-- One byte of memory. -/
def Memory.readByte : Memory → Nat → Byte
  | [], _ => unlistedByte
  | (k, v) :: rest, a => if k = a then v else Memory.readByte rest a

/-- A cell put in front of the cells above it, unless it holds what an unlisted byte reads as. -/
def Memory.cons (a : Nat) (b : Byte) (rest : Memory) : Memory :=
  if b = unlistedByte then rest else (a, b) :: rest

/-- Writes one byte, keeping the list sorted and without cells that read as unlisted. -/
def Memory.writeByte : Memory → Nat → Byte → Memory
  | [], a, b => Memory.cons a b []
  | (k, v) :: rest, a, b =>
    if a < k then Memory.cons a b ((k, v) :: rest)
    else if a = k then Memory.cons a b rest
    else (k, v) :: Memory.writeByte rest a b

/-- Byte `k` of a word, byte 0 the least significant. -/
def wordByte (v : Word) (k : Nat) : Byte := v.extractLsb' (8 * k) 8

/-- The word made of four bytes, `b0` the least significant. -/
def wordOfBytes (b0 b1 b2 b3 : Byte) : Word := b3 ++ b2 ++ b1 ++ b0

/-- M[p], the word at physical word address `p` (R120, R201). -/
def Memory.readWord (m : Memory) (p : Nat) : Word :=
  wordOfBytes (m.readByte (4 * p)) (m.readByte (4 * p + 1)) (m.readByte (4 * p + 2)) (m.readByte (4 * p + 3))

/-- `M[p] := v`. -/
def Memory.writeWord (m : Memory) (p : Nat) (v : Word) : Memory :=
  (((m.writeByte (4 * p) (wordByte v 0)).writeByte (4 * p + 1) (wordByte v 1)).writeByte
    (4 * p + 2) (wordByte v 2)).writeByte (4 * p + 3) (wordByte v 3)

/-- The canonical form from address `lo` on: addresses strictly rising, inside M, and no cell that reads as
unlisted. -/
def Memory.wfFrom : Nat → Memory → Bool
  | _, [] => true
  | lo, (k, v) :: rest =>
    decide (lo ≤ k) && decide (k < 4 * memWords) && decide (v ≠ unlistedByte) && Memory.wfFrom (k + 1) rest

/-- The canonical form of a memory: equal memories are equal lists. -/
def Memory.wf (m : Memory) : Bool := Memory.wfFrom 0 m

/-- Places `ws` at physical word addresses `p`, `p + 1`, ... (R120, R630 load). -/
def Memory.place (m : Memory) : Nat → List Word → Memory
  | _, [] => m
  | p, w :: ws => Memory.place (m.writeWord p w) (p + 1) ws

/-- `PhysRead(p)`: reads M[p] with no MMIO decode, translation or permission check; outside M it raises the
Segfault cause of its user (R14, R225). -/
def physRead (m : Memory) (p : Word) (outside : SegfaultCause) : Except Raise Word :=
  if p.toNat < memWords then .ok (m.readWord p.toNat) else .error (.segfault outside)

end Sys2Proof.Machine
end

