-- ==== Sys2Proof/Machine/Flags.lean ====
section
/-! DEFINITION. The flag bits of the machine: the mode and control bits of S[0] (10_state.md R111), the R/W/X
flags of a page-table entry (20_memory.md R210) and the TTY status bits (60_exceptions.md R625). There are
no arithmetic flags (R109). -/

namespace Sys2Proof.Machine

/-- S[0], the flags register (R111). -/
def State.s0 (s : State) : Word := s.sr[0]

/-- S[1], the page-table base (R112). -/
def State.s1 (s : State) : Word := s.sr[1]

/-- S[2], the interrupt-vector base (R113). -/
def State.s2 (s : State) : Word := s.sr[2]

/-- S[3], the interrupt-stack base (R114). -/
def State.s3 (s : State) : Word := s.sr[3]

/-- S0.UserMode, bit 0: 1 selects user mode (R111, R621). -/
def State.userMode (s : State) : Bool := s.s0.getLsbD 0

/-- S0.Paging, bit 1 (R111). -/
def State.paging (s : State) : Bool := s.s0.getLsbD 1

/-- S0.Interrupts, bit 2 (R111). -/
def State.interrupts (s : State) : Bool := s.s0.getLsbD 2

/-- S0.DebugStepping, bit 3: no effect on the core (R111, R628). -/
def State.debugStepping (s : State) : Bool := s.s0.getLsbD 3

/-- S0.DebugTracing, bit 4: no effect on the core (R111, R628). -/
def State.debugTracing (s : State) : Bool := s.s0.getLsbD 4

/-- `v & ~0x7`: UserMode, Paging and Interrupts cleared, every other bit kept (R605, R609). -/
def clearModeBits (v : Word) : Word := v &&& ~~~(0x7 : Word)

/-- `v & 0x3FF`: a base register is a multiple of 1024 when this is 0 (R203, R208, R607). -/
def isPageAligned (v : Word) : Bool := v &&& 0x3FF == 0

/-- A set of page flags: what an access requests, or what an entry allows (R204, R210). -/
structure PageFlags where
  r : Bool
  w : Bool
  x : Bool
  deriving DecidableEq, Repr

/-- `{R, X}`, requested by fetch (R204). -/
def PageFlags.fetch : PageFlags := { r := true, w := false, x := true }

/-- `{R}`, requested by LW (R204). -/
def PageFlags.load : PageFlags := { r := true, w := false, x := false }

/-- `{W}`, requested by SW (R204). -/
def PageFlags.store : PageFlags := { r := false, w := true, x := false }

/-- The flags of a page-table entry: R in bit 2, W in bit 1, X in bit 0; bits 9..3 are ignored (R210). -/
def pteFlags (pte : Word) : PageFlags where
  r := pte.getLsbD 2
  w := pte.getLsbD 1
  x := pte.getLsbD 0

/-- `req ⊆ flags`: every requested bit is set (R211). -/
def PageFlags.subset (req flags : PageFlags) : Bool :=
  (!req.r || flags.r) && (!req.w || flags.w) && (!req.x || flags.x)

/-- TTYIn, status bit 0: the input register holds an unread byte (R625). -/
def ttyInBit (status : Word) : Bool := status.getLsbD 0

/-- TTYOut, status bit 1: the output register holds a byte awaiting transmission (R625). -/
def ttyOutBit (status : Word) : Bool := status.getLsbD 1

end Sys2Proof.Machine
end

