-- ==== Sys2Proof/Machine/Operands.lean ====
section
/-! DEFINITION. The operand forms: registers, the base plus displacement address, the branch target, the upper
immediate, the status-register index and the trap code (00_scope.md R13, 41_control.md to 44_system.md). -/

namespace Sys2Proof.Machine

/-- `x[i]` (R13). Register 0 is read as it stands; the step keeps it 0 between instructions (R101). -/
def State.getX (s : State) (i : Reg) : Word := s.x[i.val]

/-- `x[i] <- v` (R13). A write to x[0] happens and is undone by the step (R101, R404). -/
def State.setX (s : State) (i : Reg) (v : Word) : State := { s with x := s.x.set i.val v }

/-- `s[k]` (R13). -/
def State.getS (s : State) (k : Fin 4) : Word := s.sr[k.val]

/-- `s[k] <- v`: all 32 bits, no masking (R13, R480). -/
def State.setS (s : State) (k : Fin 4) (v : Word) : State := { s with sr := s.sr.set k.val v }

/-- The register that interrupt entry saves and replaces, x[29] (R102). -/
def stackReg : Reg := 29

/-- SW and LW: base register plus signed displacement, modulo 2^32 (R460 to R462). -/
def effectiveAddress (s : State) (rB : Reg) (i17 : Word) : Word := s.getX rB + i17

/-- BEQ: `pc + i17`, where pc is the incremented pc, modulo 2^32 (R421, R706). -/
def branchTarget (s : State) (i17 : Word) : Word := s.pc + i17

/-- LUI: `i22 << 10` (R443). -/
def upperImmediate (i22 : Word) : Word := i22 <<< 10

/-- The status register that i22 names; none when `i22 >=u 4` (R110). -/
def statusIndex (i22 : Word) : Option (Fin 4) :=
  if h : i22.toNat < 4 then some ⟨i22.toNat, h⟩ else none

/-- "`code ≥ 16 ⇒ code = 0`", compared unsigned (R606). -/
def clampCode (code : Word) : Word := if code.toNat < 16 then code else 0

/-- `addr >> 10`, the virtual page number (R209). -/
def pageNumber (addr : Word) : Word := addr >>> 10

/-- `(pte & 0xFFFFFC00) | (addr & 0x3FF)` (R210, R212). -/
def translatedAddress (pte addr : Word) : Word := (pte &&& 0xFFFFFC00) ||| (addr &&& 0x3FF)

end Sys2Proof.Machine
end

