-- ==== Sys2Proof/Machine/Ops.lean ====
section
/-! DEFINITION. The shared operations of the machine: the access path (20_memory.md R204), fetch (R401), taking
an interrupt or trap and returning from one (60_exceptions.md R605, R618), the fault record (R602), and how a
program is placed (R630). -/

namespace Sys2Proof.Machine

/-! ## The access path (20_memory.md R204) -/

/-- The one 32-bit cell that `Access` resolves to (R204). -/
inductive CellRef where
  /-- CF, at 0x20000. -/
  | clock
  /-- The TTY status register, at 0x20001. -/
  | ttyStatus
  /-- The TTY input register, at 0x20002. -/
  | ttyIn
  /-- The TTY output register, at 0x20003. -/
  | ttyOut
  /-- The physical word M[p]. -/
  | ram (p : Nat)
  deriving DecidableEq, Repr

/-- Reads the cell; no read has a side effect (R218). -/
def CellRef.read (s : State) : CellRef → Word
  | .clock => s.cf
  | .ttyStatus => s.tty.status
  | .ttyIn => s.tty.inReg
  | .ttyOut => s.tty.outReg
  | .ram p => s.mem.readWord p

/-- Writes the cell and nothing else (R218). -/
def CellRef.write (s : State) (v : Word) : CellRef → State
  | .clock => { s with cf := v }
  | .ttyStatus => { s with tty := { s.tty with status := v } }
  | .ttyIn => { s with tty := { s.tty with inReg := v } }
  | .ttyOut => { s with tty := { s.tty with outReg := v } }
  | .ram p => { s with mem := s.mem.writeWord p v }

/-- MMIO decode on the virtual address: the clock always, the TTY registers when attached (R205). -/
def mmioCell (attached : Bool) (addr : Word) : Option CellRef :=
  if addr = 0x20000 then some .clock
  else if addr = 0x20001 ∧ attached = true then some .ttyStatus
  else if addr = 0x20002 ∧ attached = true then some .ttyIn
  else if addr = 0x20003 ∧ attached = true then some .ttyOut
  else none

/-- The physical address of a non-MMIO access: the address itself with paging off (R207), and with paging on
the translation through the single-level page table, its checks in the order of R204 (R208 to R212). -/
def translate (s : State) (addr : Word) (req : PageFlags) : Except Raise Word :=
  if s.paging then
    if isPageAligned s.s1 then
      match physRead s.mem (s.s1 + pageNumber addr) .pageTableIndexOutOfRange with
      | .error r => .error r
      | .ok pte =>
        if req.subset (pteFlags pte) then .ok (translatedAddress pte addr)
        else .error (.notPermitted .pageFlag)
    else .error (.segfault .pageTableBaseMisaligned)
  else .ok addr

/-- `Access(addr, req)`: "the sole path to memory" (R204). -/
def access (s : State) (addr : Word) (req : PageFlags) : Except Raise CellRef :=
  match mmioCell s.ttyAttached addr with
  | some c => .ok c
  | none =>
    match translate s addr req with
    | .error r => .error r
    | .ok p => if p.toNat < memWords then .ok (.ram p.toNat) else .error (.segfault .physicalOutOfRange)

/-- `MemRead(addr, 32)` (R14). -/
def memRead (s : State) (addr : Word) : Except Raise Word :=
  match access s addr .load with
  | .error r => .error r
  | .ok c => .ok (c.read s)

/-- `MemWrite(addr, 32, v)` (R14). -/
def memWrite (s : State) (addr v : Word) : Except Raise State :=
  match access s addr .store with
  | .error r => .error r
  | .ok c => .ok (c.write s v)

/-- `FetchRead(pc)` (R14, R401). -/
def fetch (s : State) : Except Raise Word :=
  match access s s.pc .fetch with
  | .error r => .error r
  | .ok c => .ok (c.read s)

/-- Fetch's `pc <- pc + 1`, modulo 2^32 (R106, R401). -/
def State.advancePc (s : State) : State := { s with pc := s.pc + 1 }

/-- `x[0] <- 0`, after every instruction that completes without a fault or halt (R404). -/
def State.forceX0 (s : State) : State := s.setX 0 0

/-! ## Taking an interrupt or a software trap, and returning (60_exceptions.md R605, R618) -/

/-- What entry saves and switches, before the vector is read: IS0, ISP and IPC, x[29], and the three mode bits
of S[0] (R605, R608, R609). -/
def State.enterKernel (s : State) : State :=
  let saved := { s with is0 := s.s0, isp := s.getX stackReg, ipc := s.pc }
  (saved.setX stackReg s.s3).setS 0 (clearModeBits s.s0)

/-- `interrupt(code)`: clamp the code, check S[2] and then S[3], save, switch, and go to the vector word read
from physical memory (R605 to R607). -/
def interrupt (code : Word) (s : State) : Except Raise State :=
  if isPageAligned s.s2 then
    if isPageAligned s.s3 then
      match physRead s.mem (s.s2 + clampCode code) .vectorOutOfRange with
      | .error r => .error r
      | .ok target => .ok { s.enterKernel with pc := target }
    else .error (.segfault .interruptStackMisaligned)
  else .error (.segfault .vectorBaseMisaligned)

/-- Return from interrupt: S[0] from IS0, x[29] from ISP, pc from IPC; the shadows stay (R482, R618). -/
def returnFromInterrupt (s : State) : State :=
  { (s.setS 0 s.is0).setX stackReg s.isp with pc := s.ipc }

/-! ## The fault record (60_exceptions.md R602) -/

/-- The fault of a raise, with the instruction's address and the word, if one was fetched (R602). -/
def Raise.toFault (a : Word) (w : Option Word) : Raise → Fault
  | .notPermitted why => .notPermitted why a w
  | .segfault why => .segfault why a w
  | .deviceError => .deviceError a w

/-- Adds the fetched word to the record of a fault that an instruction raised (R602). -/
def Fault.withWord (w : Word) : Fault → Fault
  | .notPermitted why a _ => .notPermitted why a (some w)
  | .segfault why a _ => .segfault why a (some w)
  | .illegalOpcode a _ => .illegalOpcode a w
  | .deviceError a _ => .deviceError a (some w)

/-- An instruction's raise as its outcome: while it executes, pc is its address plus 1 (R105). -/
def raiseIn (s : State) (r : Raise) : Host.Outcome State Fault Refusal :=
  .fault (r.toFault (s.pc - 1) none)

/-- The outcome of an operation that may raise, run by the instruction executing in `s`. -/
def outcomeIn (s : State) : Except Raise State → Host.Outcome State Fault Refusal
  | .ok t => .next t
  | .error r => raiseIn s r

/-! ## How a program comes to be in memory (60_exceptions.md R630) -/

/-- The reset state of R700 with the parameters of R9: IMAGE at physical address 0 (R120; words past the end of
M are dropped), the TTY attached or not, and what the host has scheduled for its clock and the TTY. -/
def bootState (image : List Word) (attached : Bool) (nowSteps : List Nat) (replies : List TtyReply) : State :=
  { State.reset with
    mem := Memory.place [] 0 (image.take memWords)
    ttyAttached := attached
    nowSteps := nowSteps
    ttyReplies := replies }

/-- Stores a word where the next fetch reads, if that address can be fetched, and lets a halted core run. -/
def State.placeAtFetch (s : State) (w : Word) : State :=
  match access s s.pc .fetch with
  | .error _ => s
  | .ok c => { c.write s w with status := .running }

end Sys2Proof.Machine
end

