-- ==== Sys2Proof/Machine/Control.lean ====
section
/-! DEFINITION. Control transfer: JALR (jump and link, halt, software trap) and BEQ (41_control.md R420 to R422). -/

namespace Sys2Proof.Machine

/-- JALR's link-and-jump: the link is written first, then the target is read, so `jalr rX rX` continues at the
link value (R420, D3). -/
def linkAndJump (rA rB : Reg) (s : State) : State :=
  let linked := s.setX rA s.pc
  { linked with pc := linked.getX rB }

/-- R420. The test is on the register indices. With rA = rB = 0: halt when S0.Interrupts is clear (R406), else
the software trap with code i17 (R610). -/
def execJalr (rA rB : Reg) (i17 : Word) (s : State) : Host.Outcome State Fault Refusal :=
  if rA ≠ 0 ∨ rB ≠ 0 then .next (linkAndJump rA rB s)
  else if s.interrupts then outcomeIn s (interrupt i17 s)
  else .next { s with status := .halted }

/-- R421: `pc <- pc + i17` if x[rA] and x[rB] are equal bit for bit. -/
def execBeq (rA rB : Reg) (i17 : Word) (s : State) : Host.Outcome State Fault Refusal :=
  if s.getX rA = s.getX rB then .next { s with pc := branchTarget s i17 } else .next s

end Sys2Proof.Machine
end

