-- ==== Sys2Proof/Machine/Integer.lean ====
section
/-! DEFINITION. The integer ALU: ADD, ADDI, NAND, LUI (42_integer.md R440 to R444). None raises, none touches
memory, the pc beyond fetch, or a status register. -/

namespace Sys2Proof.Machine

/-- R440: `x[rA] <- x[rB] + x[rC]`, modulo 2^32. -/
def execAdd (rA rB rC : Reg) (s : State) : Host.Outcome State Fault Refusal :=
  .next (s.setX rA (s.getX rB + s.getX rC))

/-- R441: `x[rA] <- x[rB] + i17`, modulo 2^32. -/
def execAddi (rA rB : Reg) (i17 : Word) (s : State) : Host.Outcome State Fault Refusal :=
  .next (s.setX rA (s.getX rB + i17))

/-- R442: `x[rA] <- ~(x[rB] & x[rC])`. -/
def execNand (rA rB rC : Reg) (s : State) : Host.Outcome State Fault Refusal :=
  .next (s.setX rA (~~~(s.getX rB &&& s.getX rC)))

/-- R443: `x[rA] <- i22 << 10`. -/
def execLui (rA : Reg) (i22 : Word) (s : State) : Host.Outcome State Fault Refusal :=
  .next (s.setX rA (upperImmediate i22))

end Sys2Proof.Machine
end

