-- ==== Sys2Proof/Machine/LoadStore.lean ====
section
/-! DEFINITION. Loads and stores: SW, LW (43_loadstore.md R460 to R462). -/

namespace Sys2Proof.Machine

/-- R460: `*Access(x[rB] + i17, {W}) := x[rA]`. On a fault memory is unchanged. -/
def execSw (rA rB : Reg) (i17 : Word) (s : State) : Host.Outcome State Fault Refusal :=
  outcomeIn s (memWrite s (effectiveAddress s rB i17) (s.getX rA))

/-- R461: `x[rA] <- *Access(x[rB] + i17, {R})`. The access is made even when rA = 0. -/
def execLw (rA rB : Reg) (i17 : Word) (s : State) : Host.Outcome State Fault Refusal :=
  match memRead s (effectiveAddress s rB i17) with
  | .ok v => .next (s.setX rA v)
  | .error r => raiseIn s r

end Sys2Proof.Machine
end

