-- ==== Sys2Proof/Machine/System.lean ====
section
/-! DEFINITION. The privileged instructions WSR, RSR and IRET (44_system.md R480 to R482). -/

namespace Sys2Proof.Machine

/-- The check WSR and RSR share: user mode, or an index of 4 or more, raises NotPermitted (R480, R481). -/
def statusAccess (i22 : Word) (s : State) : Except Raise (Fin 4) :=
  if s.userMode then .error (.notPermitted .statusRegisterInUserMode)
  else
    match statusIndex i22 with
    | some k => .ok k
    | none => .error (.notPermitted .badStatusIndex)

/-- R480: `s[i22] <- x[rA]`. -/
def execWsr (rA : Reg) (i22 : Word) (s : State) : Host.Outcome State Fault Refusal :=
  match statusAccess i22 s with
  | .ok k => .next (s.setS k (s.getX rA))
  | .error r => raiseIn s r

/-- R481: `x[rA] <- s[i22]`. -/
def execRsr (rA : Reg) (i22 : Word) (s : State) : Host.Outcome State Fault Refusal :=
  match statusAccess i22 s with
  | .ok k => .next (s.setX rA (s.getS k))
  | .error r => raiseIn s r

/-- R482: NotPermitted in user mode, else the return from interrupt. -/
def execIret (s : State) : Host.Outcome State Fault Refusal :=
  if s.userMode then raiseIn s (.notPermitted .iretInUserMode)
  else .next (returnFromInterrupt s)

end Sys2Proof.Machine
end

