-- ==== Sys2Proof/Machine/Dispatch.lean ====
section
/-! DEFINITION. Execute: one arm per instruction (40_cycle.md R403). -/

namespace Sys2Proof.Machine

/-- Execute dispatches on the opcode (R403). The state is the one after fetch: pc is the instruction's address
plus 1 (R105). -/
def exec (i : Instr) (s : State) : Host.Outcome State Fault Refusal :=
  match i with
  -- 41_control.md
  | .jalr rA rB i17 => Sys2Proof.Machine.execJalr rA rB i17 s
  -- 42_integer.md
  | .add rA rB rC => Sys2Proof.Machine.execAdd rA rB rC s
  | .addi rA rB i17 => Sys2Proof.Machine.execAddi rA rB i17 s
  | .nand rA rB rC => Sys2Proof.Machine.execNand rA rB rC s
  | .lui rA i22 => Sys2Proof.Machine.execLui rA i22 s
  -- 43_loadstore.md
  | .sw rA rB i17 => Sys2Proof.Machine.execSw rA rB i17 s
  | .lw rA rB i17 => Sys2Proof.Machine.execLw rA rB i17 s
  -- 41_control.md
  | .beq rA rB i17 => Sys2Proof.Machine.execBeq rA rB i17 s
  -- 44_system.md
  | .wsr rA i22 => Sys2Proof.Machine.execWsr rA i22 s
  | .rsr rA i22 => Sys2Proof.Machine.execRsr rA i22 s
  | .iret => Sys2Proof.Machine.execIret s

end Sys2Proof.Machine
end

