-- ==== Sys2Proof/Machine/Poll.lean ====
section
/-! DEFINITION. The interrupt poll at the instruction boundary: the clock check and the TTY check
(60_exceptions.md R611 to R613, R626), and what the step does after an instruction (40_cycle.md R404 to R406). -/

namespace Sys2Proof.Machine

/-! ## The draws of the host's time and of the TTY device (00_scope.md R9) -/

/-- How much time passes before the next draw: the host's next scheduled increment, else the free value. -/
def State.nextNowStep (s : State) : Nat :=
  match s.nowSteps with
  | d :: _ => d
  | [] => Config.nowStep s.nowDraws

/-- `now` at the next clock check, in nanoseconds; never less than the draw before it (D17). -/
def State.now (s : State) : Nat := s.hostNow + s.nextNowStep

/-- The state after the time draw. -/
def State.drawNow (s : State) : State :=
  { s with hostNow := s.now, nowSteps := s.nowSteps.tail, nowDraws := s.nowDraws + 1 }

/-- The device's reply to the next probe: the host's next scheduled reply, else the free value (D19). -/
def State.nextTtyReply (s : State) : TtyReply :=
  match s.ttyReplies with
  | r :: _ => r
  | [] => Config.ttyReply s.ttyProbes s.tty

/-- The TTY registers after a probe, under the protocol of R626: the device clears TTYOut and never sets it, sets
TTYIn and never clears it, leaves status bits 31..2, and writes a zero-extended byte into the input
register when it sets TTYIn. -/
def probedRegs (old new : TtyRegs) : TtyRegs where
  status := (old.status &&& 0xFFFFFFFC) ||| ((old.status ||| new.status) &&& 1) ||| (old.status &&& new.status &&& 2)
  inReg := if !ttyInBit old.status && ttyInBit new.status then new.inReg &&& 0xFF else new.inReg
  outReg := new.outReg

/-- The state after the next probe (R613, R626). -/
def State.afterProbe (s : State) : State :=
  { s with
    tty := probedRegs s.tty s.nextTtyReply.regs
    ttyReplies := s.ttyReplies.tail
    ttyProbes := s.ttyProbes + 1 }

/-! ## The poll (60_exceptions.md R611) -/

/-- The code of the clock interrupt, `IrqClock` (R604). -/
def irqClock : Word := 1

/-- The code of the TTY interrupt, `IrqTTY` (R604). -/
def irqTty : Word := 2

/-- CF milliseconds in nanoseconds: `CF × 10^6` (R612, D17). -/
def clockPeriod (cf : Word) : Nat := cf.toNat * 10 ^ 6

/-- "if `now − LTR ≥ CF ms`"; with LTR unset the elapsed time is 0 (R612). -/
def State.clockDue (s : State) : Bool :=
  decide (clockPeriod s.cf ≤ s.now - s.ltr.getD s.now)

/-- The state after a clock check that does not fire: the draw is made, and LTR is recorded if unset (R612). -/
def State.clockChecked (s : State) : State :=
  { s.drawNow with ltr := some (s.ltr.getD s.now) }

/-- The state of a clock check that fires, before the interrupt: LTR becomes the time drawn (R612). -/
def State.clockFired (s : State) : State :=
  { s.drawNow with ltr := some s.now }

/-- The TTY check (R613). -/
def pollTty (s : State) : Except Raise State :=
  if s.ttyAttached then
    match s.nextTtyReply.answer with
    | .error => .error .deviceError
    | .pending => interrupt irqTty s.afterProbe
    | .notPending => .ok s.afterProbe
  else .ok s

/-- `Poll()` (R611): nothing with Interrupts clear, else the clock first and then the TTY (R614). -/
def poll (s : State) : Except Raise State :=
  if s.interrupts then
    if s.cf ≠ 0 then
      if s.clockDue then interrupt irqClock s.clockFired else pollTty s.clockChecked
    else pollTty s
  else .ok s

/-! ## The instruction boundary (40_cycle.md R400, R404 to R406) -/

/-- What the step does after the instruction at `a`, with word `w`, has executed: nothing after a halt (R406), else
force x[0] and poll (R404, R405). A fault of the instruction or of the poll gets its record (R602). -/
def boundary (a w : Word) : Host.Outcome State Fault Refusal → Host.Outcome State Fault Refusal
  | .next t =>
    match t.status with
    | .halted => .next t
    | .running =>
      match poll t.forceX0 with
      | .ok u => .next u
      | .error r => .fault (r.toFault a (some w))
  | .fault f => .fault (f.withWord w)
  | .refused r => .refused r

end Sys2Proof.Machine
end

