-- ==== Sys2Proof/Machine/Step.lean ====
section
/-! DEFINITION. One step of the core (40_cycle.md R400), and where the next instruction's word is placed. -/

namespace Sys2Proof.Machine

/-- `Step()` of R400: fetch, `pc <- pc + 1`, decode, execute, force x[0], poll. A fetch fault has no word and a
reserved opcode is reported at execute (R310, R602). No step runs once the run is over (R400). -/
def step (s : State) : Host.Outcome State Fault Refusal :=
  match s.status with
  | .halted => .refused .runOver
  | .running =>
    match fetch s with
    | .error r => .fault (r.toFault s.pc none)
    | .ok w =>
      match decode w with
      | .error _ => .fault (.illegalOpcode s.pc w)
      | .ok i => boundary s.pc w (exec i s.advancePc)

/-- `s` with the one word of an instruction stored where `step` fetches its next instruction. -/
def State.withFetchWord (s : State) (nbits w : Nat) : State :=
  s.placeAtFetch (BitVec.ofNat 32 (w % 2 ^ nbits))

end Sys2Proof.Machine
end

