-- ==== Sys2Proof/Machine/Assembler.lean ====
section
/-! DEFINITION. The assembler's syntax and the words it emits, and the disassembler's text, as the toolchain's
interface (30_encoding.md R320 to R348), and the bytecode text that the loader reads (R349). No rule of the machine
depends on this file. -/

namespace Sys2Proof.Asm

/-! ## Errors (R345) -/

/-- The error kinds the source names, with their line numbers (R345). -/
inductive AsmError where
  /-- Unknown mnemonic, wrong operand count or kind, register index > 31, duplicate label. -/
  | parseError (line : Nat) (msg : String)
  /-- An immediate names a label that no line defines (R326). -/
  | undefinedLabel (name : String) (line : Nat)
  /-- An immediate does not fit its field of `bits` bits (R326). -/
  | immediateOutOfRange (bits line : Nat)
  /-- More words than the memory has (R345), with the line whose words go past its end (notes/assumptions/11.md). -/
  | tooManyInstructions (line : Nat)
  /-- Named by the source; no rule of the spec gives it a cause, so nothing here raises it
  (notes/assumptions/11.md). -/
  | cannotEncode (reason : String) (line : Nat)
  deriving DecidableEq, Repr

/-! ## Lexical form (R320 to R323) -/

/-- Whitespace inside a line. -/
def isSpace (c : Char) : Bool := c == ' ' || c == '\t' || c == '\r'

/-- The lines of a source text: newlines separate statements (R320). -/
def splitLines : List Char → List (List Char)
  | [] => [[]]
  | c :: cs =>
    if c = '\n' then [] :: splitLines cs
    else
      match splitLines cs with
      | l :: ls => (c :: l) :: ls
      | [] => [[c]]

/-- A `#` begins a comment to the end of the line (R320). -/
def stripComment (l : List Char) : List Char := l.takeWhile (fun c => c != '#')

/-- The tokens of a line, `acc` being the token read so far, last character first. -/
def tokensFrom : List Char → List Char → List (List Char)
  | acc, [] => if acc.isEmpty then [] else [acc.reverse]
  | acc, c :: cs =>
    if isSpace c then
      if acc.isEmpty then tokensFrom [] cs else acc.reverse :: tokensFrom [] cs
    else tokensFrom (c :: acc) cs

/-- Whitespace separates tokens; commas do not (R320). -/
def tokens (l : List Char) : List (List Char) := tokensFrom [] (stripComment l)

/-- The value of a digit in a base. DESIGN CHOICE: the spec is silent on the case of hexadecimal digits, and both `a` to
`f` and `A` to `F` are digits (R323; notes/assumptions/19.md). -/
def digitValue (base : Nat) (c : Char) : Option Nat :=
  let n := c.toNat
  let v :=
    if 48 ≤ n ∧ n ≤ 57 then some (n - 48)
    else if 97 ≤ n ∧ n ≤ 102 then some (n - 87)
    else if 65 ≤ n ∧ n ≤ 70 then some (n - 55)
    else none
  match v with
  | some d => if d < base then some d else none
  | none => none

/-- The value of a run of digits, `acc` being the value so far. -/
def digitsFrom (base : Nat) : Nat → List Char → Option Nat
  | acc, [] => some acc
  | acc, c :: cs =>
    match digitValue base c with
    | some d => digitsFrom base (acc * base + d) cs
    | none => none

/-- One digit or more in a base. -/
def parseDigits (base : Nat) (cs : List Char) : Option Nat :=
  if cs.isEmpty then none else digitsFrom base 0 cs

/-- A number without sign: decimal, or `0x` or `0b` prefixed (R323), the prefix in lower case only
(notes/assumptions/19.md). -/
def parseNat : List Char → Option Nat
  | '0' :: 'x' :: ds => parseDigits 16 ds
  | '0' :: 'b' :: ds => parseDigits 2 ds
  | ds => parseDigits 10 ds

/-- An integer literal; a negative one is `-` followed by the digits (R323). -/
def parseInt : List Char → Option Int
  | '-' :: ds => (parseNat ds).map (fun n => -(n : Int))
  | ds => (parseNat ds).map (fun n => (n : Int))

/-- `r` followed by a decimal index, of any size (R322). -/
def parseRegIndex : List Char → Option Nat
  | 'r' :: ds => parseDigits 10 ds
  | _ => none

/-- A register literal `r0` to `r31` (R321). -/
def parseReg (t : List Char) : Option Reg :=
  match parseRegIndex t with
  | some n => if h : n < 32 then some ⟨n, h⟩ else none
  | none => none

/-- `[A-Za-z_]` (R321). -/
def isIdentStart (c : Char) : Bool := c.isAlpha || c == '_'

/-- `[A-Za-z0-9_]` (R321). -/
def isIdentChar (c : Char) : Bool := c.isAlphanum || c == '_'

/-- An identifier: `[A-Za-z_][A-Za-z0-9_]*` that is not a register literal (R321). -/
def isIdentifier : List Char → Bool
  | [] => false
  | c :: cs => isIdentStart c && cs.all isIdentChar && (parseReg (c :: cs)).isNone

/-- An identifier followed by a colon, as the label it defines (R321). -/
def labelToken (t : List Char) : Option String :=
  match t.reverse with
  | ':' :: name => if isIdentifier name.reverse then some (String.ofList name.reverse) else none
  | _ => none

/-! ## Grammar (R324) -/

/-- An immediate operand: an integer literal or a label reference (R324). -/
inductive Imm where
  | lit (v : Int)
  | label (name : String)
  deriving DecidableEq, Repr

/-- The source forms of R324 and R346, instructions and directives. -/
inductive SrcOp where
  | add (rA rB rC : Reg)
  | nand (rA rB rC : Reg)
  | addi (rA rB : Reg) (imm : Imm)
  | sw (rA rB : Reg) (imm : Imm)
  | lw (rA rB : Reg) (imm : Imm)
  | beq (rA rB : Reg) (target : Imm)
  | lui (rA : Reg) (imm : Imm)
  | wsr (rA : Reg) (imm : Imm)
  | rsr (rA : Reg) (imm : Imm)
  | jalr (rA rB : Reg) (imm : Option Imm)
  | halt
  | nop
  | iret
  | lli (rA : Reg) (imm : Imm)
  | movi (rA : Reg) (imm : Imm)
  | trap (imm : Imm)
  | fill (imm : Imm)
  | space (n : Nat)
  deriving DecidableEq, Repr

/-- One logical line (R324), with its number counted from 1. -/
structure Line where
  number : Nat
  label : Option String
  op : Option SrcOp
  deriving DecidableEq, Repr

/-- A register operand (R322). -/
def regOperand (t : List Char) : Except String Reg :=
  match parseReg t with
  | some r => .ok r
  | none =>
    if (parseRegIndex t).isSome then .error "register index > 31" else .error "wrong operand kind"

/-- An immediate operand (R324). -/
def immOperand (t : List Char) : Except String Imm :=
  match parseInt t with
  | some v => .ok (.lit v)
  | none => if isIdentifier t then .ok (.label (String.ofList t)) else .error "wrong operand kind"

/-- What is said of a mnemonic with too many or too few operands (R345). -/
def wrongCount : Except String SrcOp := .error "wrong operand count"

/-- `rrr_op rA rB rC` -/
def parseRRR (mk : Reg → Reg → Reg → SrcOp) : List (List Char) → Except String SrcOp
  | [a, b, c] => do return mk (← regOperand a) (← regOperand b) (← regOperand c)
  | _ => wrongCount

/-- `rri_op rA rB imm` -/
def parseRRI (mk : Reg → Reg → Imm → SrcOp) : List (List Char) → Except String SrcOp
  | [a, b, i] => do return mk (← regOperand a) (← regOperand b) (← immOperand i)
  | _ => wrongCount

/-- `ri_op rA imm` -/
def parseRI (mk : Reg → Imm → SrcOp) : List (List Char) → Except String SrcOp
  | [a, i] => do return mk (← regOperand a) (← immOperand i)
  | _ => wrongCount

/-- `jalr rA rB [imm]` -/
def parseJalr : List (List Char) → Except String SrcOp
  | [a, b] => do return .jalr (← regOperand a) (← regOperand b) none
  | [a, b, i] => do return .jalr (← regOperand a) (← regOperand b) (some (← immOperand i))
  | _ => wrongCount

/-- `trap imm`, `.fill imm` -/
def parseImm (mk : Imm → SrcOp) : List (List Char) → Except String SrcOp
  | [i] => do return mk (← immOperand i)
  | _ => wrongCount

/-- `halt`, `nop`, `iret` -/
def parseBare (op : SrcOp) : List (List Char) → Except String SrcOp
  | [] => .ok op
  | _ => wrongCount

/-- `.space N`, N a non-negative integer literal and no label (R344). DESIGN CHOICE: the spec does not say which error a
negative N gives, and it is a ParseError, wrong operand kind (notes/assumptions/21.md). -/
def parseSpace : List (List Char) → Except String SrcOp
  | [n] =>
    match parseInt n with
    | some v => if 0 ≤ v then .ok (.space v.toNat) else .error "wrong operand kind"
    | none => .error "wrong operand kind"
  | _ => wrongCount

/-- An instruction or a directive, its mnemonic case-sensitive lowercase (R321, R324). -/
def parseOp (mnemonic : String) (args : List (List Char)) : Except String SrcOp :=
  if mnemonic = "add" then parseRRR .add args
  else if mnemonic = "nand" then parseRRR .nand args
  else if mnemonic = "addi" then parseRRI .addi args
  else if mnemonic = "sw" then parseRRI .sw args
  else if mnemonic = "lw" then parseRRI .lw args
  else if mnemonic = "beq" then parseRRI .beq args
  else if mnemonic = "lui" then parseRI .lui args
  else if mnemonic = "wsr" then parseRI .wsr args
  else if mnemonic = "rsr" then parseRI .rsr args
  else if mnemonic = "jalr" then parseJalr args
  else if mnemonic = "halt" then parseBare .halt args
  else if mnemonic = "nop" then parseBare .nop args
  else if mnemonic = "iret" then parseBare .iret args
  else if mnemonic = "lli" then parseRI .lli args
  else if mnemonic = "movi" then parseRI .movi args
  else if mnemonic = "trap" then parseImm .trap args
  else if mnemonic = ".fill" then parseImm .fill args
  else if mnemonic = ".space" then parseSpace args
  else .error "unknown mnemonic"

/-- `(instr | directive)?` -/
def parseRest : List (List Char) → Except String (Option SrcOp)
  | [] => .ok none
  | m :: args => do return some (← parseOp (String.ofList m) args)

/-- `[label ":"] (instr | directive)? comment?` (R324). DESIGN CHOICE: whitespace may stand before a label, which is the
first token of its line (notes/assumptions/22.md). -/
def parseLine (number : Nat) (text : List Char) : Except AsmError Line :=
  let ts := tokens text
  let label := ts.head?.bind labelToken
  match parseRest (if label.isSome then ts.tail else ts) with
  | .ok op => .ok { number := number, label := label, op := op }
  | .error msg => .error (.parseError number msg)

/-- The lines of the text, from line `n` on, up to the first error. -/
def parseLines : Nat → List (List Char) → Except AsmError (List Line)
  | _, [] => .ok []
  | n, l :: ls => do return (← parseLine n l) :: (← parseLines (n + 1) ls)

/-! ## Addresses and labels (R325) -/

/-- How many words a source form emits (R325, R346). -/
def SrcOp.size : SrcOp → Nat
  | .movi _ _ => 2
  | .space n => n
  | _ => 1

/-- How many words a line emits. -/
def Line.size (l : Line) : Nat :=
  match l.op with
  | some op => op.size
  | none => 0

/-- The labels in scope, each with the index of the next word emitted after it (R325). -/
abbrev Labels := List (String × Nat)

/-- The index of a label. -/
def lookupLabel (labels : Labels) (name : String) : Option Nat :=
  (labels.find? (fun e => e.1 == name)).map (·.2)

/-- The labels of the lines, the first of which starts at word `index`; defining one twice is an error (R325). DESIGN
CHOICE: a label with no word emitted after it, at the end of the text, is bound to the index one past the last word
(notes/assumptions/18.md). -/
def collectLabels : Nat → Labels → List Line → Except AsmError Labels
  | _, labels, [] => .ok labels
  | index, labels, l :: ls =>
    match l.label with
    | none => collectLabels (index + l.size) labels ls
    | some name =>
      if (lookupLabel labels name).isSome then .error (.parseError l.number "duplicate label")
      else collectLabels (index + l.size) (labels ++ [(name, index)]) ls

/-! ## Immediates and the words emitted (R326 to R344) -/

/-- A value as a signed 64-bit number (R326). DESIGN CHOICE: a value that is none is out of range with `bits` 64
(notes/assumptions/11.md). -/
def signed64 (line : Nat) (v : Int) : Except AsmError Int :=
  if -(2 ^ 63) ≤ v ∧ v < 2 ^ 63 then .ok v else .error (.immediateOutOfRange 64 line)

/-- The signed 64-bit value of an immediate: its literal, or its label's index (R326). -/
def resolve (labels : Labels) (line : Nat) : Imm → Except AsmError Int
  | .lit v => signed64 line v
  | .label name =>
    match lookupLabel labels name with
    | some k => signed64 line (k : Int)
    | none => .error (.undefinedLabel name line)

/-- A value checked against `[-2^(w-1), 2^(w-1)-1]`, as a word (R326). -/
def signedField (bits line : Nat) (v : Int) : Except AsmError Word :=
  if -(2 ^ (bits - 1)) ≤ v ∧ v < 2 ^ (bits - 1) then .ok (BitVec.ofInt 32 v)
  else .error (.immediateOutOfRange bits line)

/-- A value checked against `[0, 2^w-1]`, as a word (R326). -/
def unsignedField (bits line : Nat) (v : Int) : Except AsmError Word :=
  if 0 ≤ v ∧ v < 2 ^ bits then .ok (BitVec.ofInt 32 v)
  else .error (.immediateOutOfRange bits line)

/-- `imm & 0x3FF` of any integer (R340). -/
def low10 (v : Int) : Word := BitVec.ofInt 32 v &&& 0x3FF

/-- The words of one source form at word index `index` (R327 to R344). -/
def emit (labels : Labels) (line index : Nat) : SrcOp → Except AsmError (List Word)
  | .add rA rB rC => .ok [encodeRRR 1 rA rB rC]
  | .nand rA rB rC => .ok [encodeRRR 3 rA rB rC]
  | .addi rA rB imm => do
    let f ← signedField 17 line (← resolve labels line imm)
    return [encodeRRI 2 rA rB f]
  | .sw rA rB imm => do
    let f ← signedField 17 line (← resolve labels line imm)
    return [encodeRRI 5 rA rB f]
  | .lw rA rB imm => do
    let f ← signedField 17 line (← resolve labels line imm)
    return [encodeRRI 6 rA rB f]
  | .beq rA rB target => do
    let f ← signedField 17 line ((← resolve labels line target) - ((index : Int) + 1))
    return [encodeRRI 7 rA rB f]
  | .lui rA imm => do
    let f ← unsignedField 22 line (← resolve labels line imm)
    return [encodeRI 4 rA f]
  | .wsr rA imm => do
    let f ← unsignedField 22 line (← resolve labels line imm)
    return [encodeRI 8 rA f]
  | .rsr rA imm => do
    let f ← unsignedField 22 line (← resolve labels line imm)
    return [encodeRI 9 rA f]
  | .jalr rA rB none => .ok [encodeRRI 0 rA rB 0]
  | .jalr rA rB (some imm) => do
    let f ← signedField 17 line (← resolve labels line imm)
    return [encodeRRI 0 rA rB f]
  | .halt => .ok [encodeRRI 0 0 0 0]
  | .nop => .ok [encodeRRR 1 0 0 0]
  | .iret => .ok [encodeRI 10 0 0]
  | .lli rA imm => do
    let v ← resolve labels line imm
    return [encodeRRI 2 rA rA (low10 v)]
  | .movi rA imm => do
    let v ← unsignedField 32 line (← resolve labels line imm)
    return [encodeRI 4 rA (v >>> 10), encodeRRI 2 rA rA (v &&& 0x3FF)]
  | .trap imm => do
    let f ← signedField 17 line (← resolve labels line imm)
    return [encodeRRI 0 0 0 f]
  | .fill imm => do
    let v ← resolve labels line imm
    if -(2 ^ 31) ≤ v ∧ v < 2 ^ 32 then return [BitVec.ofInt 32 v]
    else throw (.immediateOutOfRange 32 line)
  | .space n => .ok (List.replicate n 0)

/-- The words of the lines, the first of which starts at word `index`. -/
def emitLines (labels : Labels) : Nat → List Line → Except AsmError (List Word)
  | _, [] => .ok []
  | index, l :: ls => do
    let ws ←
      match l.op with
      | some op => emit labels l.number index op
      | none => .ok []
    return ws ++ (← emitLines labels (index + l.size) ls)

/-- The words of the lines, the first of which starts at word `index`, fit in the memory; else the error names the
first line that goes past its end (R345). -/
def checkSize : Nat → List Line → Except AsmError Unit
  | _, [] => .ok ()
  | index, l :: ls =>
    if Machine.memWords < index + l.size then .error (.tooManyInstructions l.number)
    else checkSize (index + l.size) ls

/-- The whole assembler: the words at indexes 0, 1, ..., or the first error (R325, R345). -/
def assemble (source : String) : Except AsmError (List Word) := do
  let ls ← parseLines 1 (splitLines source.toList)
  let labels ← collectLabels 0 [] ls
  checkSize 0 ls
  emitLines labels 0 ls

/-! ## Disassembly (R347) -/

/-- A register as the assembler spells it (R322). -/
def regText (r : Reg) : String := "r" ++ toString r.val

/-- `op rA rB rC` -/
def textRRR (op : String) (rA rB rC : Reg) : String :=
  op ++ " " ++ regText rA ++ " " ++ regText rB ++ " " ++ regText rC

/-- `op rA rB imm`, the immediate the signed decimal i17 (for BEQ the offset, not the target). -/
def textRRI (op : String) (rA rB : Reg) (i17 : Word) : String :=
  op ++ " " ++ regText rA ++ " " ++ regText rB ++ " " ++ toString i17.toInt

/-- `op rA imm` (R347). DESIGN CHOICE: the spec names no number base here, and the immediate is the unsigned decimal i22
(notes/assumptions/20.md). -/
def textRI (op : String) (rA : Reg) (i22 : Word) : String :=
  op ++ " " ++ regText rA ++ " " ++ toString i22.toNat

/-- The canonical text of an instruction. -/
def instrText : Instr → String
  | .jalr rA rB i17 => textRRI "jalr" rA rB i17
  | .add rA rB rC => textRRR "add" rA rB rC
  | .addi rA rB i17 => textRRI "addi" rA rB i17
  | .nand rA rB rC => textRRR "nand" rA rB rC
  | .lui rA i22 => textRI "lui" rA i22
  | .sw rA rB i17 => textRRI "sw" rA rB i17
  | .lw rA rB i17 => textRRI "lw" rA rB i17
  | .beq rA rB i17 => textRRI "beq" rA rB i17
  | .wsr rA i22 => textRI "wsr" rA i22
  | .rsr rA i22 => textRI "rsr" rA i22
  | .iret => "iret"

/-- `disassemble(word)`; a reserved opcode N gives `<unknown N>` (R347), N in decimal
(notes/assumptions/20.md). -/
def disassemble (w : Word) : String :=
  match decode w with
  | .ok i => instrText i
  | .error (.reservedOpcode op) => "<unknown " ++ toString op.toNat ++ ">"

/-! ## The bytecode text (R349) -/

/-- A line of the bytecode text. -/
inductive BytecodeLine where
  | value (w : Word)
  /-- Nothing but a comment: no value line (notes/assumptions/12.md). -/
  | comment
  | blank
  deriving DecidableEq, Repr

/-- One word, `0x` prefixed, with whitespace around it and a comment after it (R349). -/
def bytecodeLine (l : List Char) : Option BytecodeLine :=
  match tokens l with
  | [] => some (if l.contains '#' then .comment else .blank)
  | ['0' :: 'x' :: ds] =>
    match parseDigits 16 ds with
    | some n => if n < 2 ^ 32 then some (.value (BitVec.ofNat 32 n)) else none
    | none => none
  | _ => none

/-- The words of the lines. `inside` says that a word came before, `gap` that a blank line came after it: a word
after the gap is refused, since blank lines are not permitted between words (R349). -/
def bytecodeWords : Bool → Bool → List (List Char) → Option (List Word)
  | _, _, [] => some []
  | inside, gap, l :: ls =>
    match bytecodeLine l with
    | none => none
    | some .comment => bytecodeWords inside gap ls
    | some .blank => bytecodeWords inside inside ls
    | some (.value w) => if gap then none else (bytecodeWords true false ls).map (w :: ·)

/-- The IMAGE that a bytecode text gives: word k is loaded at M[k] (R349, D30). -/
def loadBytecode (source : String) : Option (List Word) :=
  bytecodeWords false false (splitLines source.toList)

end Sys2Proof.Asm
end

