-- ==== Sys2Proof/Safety.lean ====
section
/-! DEFINITION. The terms the claims use: what an instruction may leave unchanged, when an address is a device's, when
interrupt entry goes through and what it leaves, and the invariant of a run. -/

namespace Sys2Proof.Machine

/-! ## Frames -/

/-- Every general register outside `changed` holds what it held. -/
def SameRegsExcept (changed : List Reg) (s t : State) : Prop := ∀ r, r ∉ changed → t.getX r = s.getX r

/-- Every byte of memory reads as before. -/
def SameMemory (s t : State) : Prop := ∀ a, t.mem.readByte a = s.mem.readByte a

/-- Every byte of memory outside word M[p] reads as before. -/
def SameMemoryExceptWord (p : Nat) (s t : State) : Prop :=
  ∀ a, a < 4 * p ∨ 4 * p + 4 ≤ a → t.mem.readByte a = s.mem.readByte a

/-- The shadow registers IPC, IS0 and ISP are unchanged (R115). -/
structure SameShadows (s t : State) : Prop where
  ipc : t.ipc = s.ipc
  is0 : t.is0 = s.is0
  isp : t.isp = s.isp

/-- The clock and TTY registers are unchanged (R116 to R118). -/
structure SameDevices (s t : State) : Prop where
  cf : t.cf = s.cf
  ltr : t.ltr = s.ltr
  ttyAttached : t.ttyAttached = s.ttyAttached
  tty : t.tty = s.tty

/-- No time draw and no TTY probe was made. -/
structure SameHost (s t : State) : Prop where
  hostNow : t.hostNow = s.hostNow
  nowSteps : t.nowSteps = s.nowSteps
  nowDraws : t.nowDraws = s.nowDraws
  ttyReplies : t.ttyReplies = s.ttyReplies
  ttyProbes : t.ttyProbes = s.ttyProbes

/-- Nothing but LTR, the TTY registers and the host's draws may have changed: what a clock check or a TTY probe leaves
(R612, R613). -/
structure SameCore (s t : State) : Prop where
  regs : SameRegsExcept [] s t
  pc : t.pc = s.pc
  sr : t.sr = s.sr
  shadows : SameShadows s t
  cf : t.cf = s.cf
  ttyAttached : t.ttyAttached = s.ttyAttached
  memory : t.mem = s.mem
  status : t.status = s.status

/-- Everything but the general registers, the pc and memory is unchanged. -/
structure SameSystem (s t : State) : Prop where
  sr : t.sr = s.sr
  shadows : SameShadows s t
  devices : SameDevices s t
  host : SameHost s t
  status : t.status = s.status

/-- Nothing but the general register `rA` may have changed. -/
structure OnlyRegister (rA : Reg) (s t : State) : Prop where
  regs : SameRegsExcept [rA] s t
  pc : t.pc = s.pc
  memory : SameMemory s t
  system : SameSystem s t

/-! ## Addresses -/

/-- The address is that of a device register that is present (R205). -/
def IsMmio (attached : Bool) (addr : Word) : Prop :=
  addr = 0x20000 ∨ (attached = true ∧ (addr = 0x20001 ∨ addr = 0x20002 ∨ addr = 0x20003))

/-- The word number of the page-table entry for `addr`: `s[1] + (addr >> 10)`, modulo 2^32 (R209). -/
def pteIndex (s : State) (addr : Word) : Nat := (s.s1.toNat + addr.toNat / 1024) % 2 ^ 32

/-- The page-table entry for `addr`, when its index lies inside M (R209). -/
def pteOf (s : State) (addr : Word) : Word := s.mem.readWord (pteIndex s addr)

/-- `(pte & 0xFFFFFC00) | (addr & 0x3FF)` in numbers (R212). -/
def pagedAddress (pte addr : Word) : Nat := pte.toNat / 1024 * 1024 + addr.toNat % 1024

/-! ## Interrupt entry -/

/-- The code that selects the vector: codes of 16 and more count as 0 (R606). -/
def vectorCode (code : Word) : Nat := if code.toNat < 16 then code.toNat else 0

/-- Entry with this code raises nothing: both bases are multiples of 1024 and the vector lies inside M (R607). -/
structure EntryReady (code : Word) (s : State) : Prop where
  vectorBase : s.s2.toNat % 1024 = 0
  stackBase : s.s3.toNat % 1024 = 0
  vectorInRange : s.s2.toNat + vectorCode code < memWords

/-- Entry with this code raises Segfault for this cause: the first of the checks of R605 that fails (R607, F8 to F10). -/
def EntryRaises (code : Word) (s : State) : SegfaultCause → Prop
  | .vectorBaseMisaligned => s.s2.toNat % 1024 ≠ 0
  | .interruptStackMisaligned => s.s2.toNat % 1024 = 0 ∧ s.s3.toNat % 1024 ≠ 0
  | .vectorOutOfRange =>
    s.s2.toNat % 1024 = 0 ∧ s.s3.toNat % 1024 = 0 ∧ memWords ≤ s.s2.toNat + vectorCode code
  | .pageTableBaseMisaligned | .pageTableIndexOutOfRange | .physicalOutOfRange => False

/-- `t` is what interrupt entry makes of `s` (R605, R608, R609): the shadows saved, the stack switched, the mode bits
of S[0] cleared and its other bits kept, the pc at the vector word, and all else unchanged. -/
structure Entered (code : Word) (s t : State) : Prop where
  is0 : t.is0 = s.s0
  isp : t.isp = s.getX stackReg
  ipc : t.ipc = s.pc
  stack : t.getX stackReg = s.s3
  kernel : t.userMode = false
  unpaged : t.paging = false
  masked : t.interrupts = false
  otherFlags : ∀ k, 3 ≤ k → t.s0.getLsbD k = s.s0.getLsbD k
  bases : t.s1 = s.s1 ∧ t.s2 = s.s2 ∧ t.s3 = s.s3
  pc : t.pc = s.mem.readWord (s.s2.toNat + vectorCode code)
  regs : SameRegsExcept [stackReg] s t
  memory : t.mem = s.mem
  devices : SameDevices s t
  host : SameHost s t
  status : t.status = s.status

/-! ## The invariant of a run -/

/-- What every step keeps: memory in its canonical form, x[0] zero at the instruction boundary (R101), and no clock
interrupt later than the host's time (R117, D17). -/
structure State.Inv (s : State) : Prop where
  memory : s.mem.wf = true
  zero : s.getX 0 = 0
  clock : ∀ l, s.ltr = some l → l ≤ s.hostNow

end Sys2Proof.Machine
end

