-- ==== Sys2Proof/Certificates/Slice0/Obligations.lean ====
section
/-! DEFINITION. The statements for the provers, in the order of OBLIGATIONS.json. -/

open Sys2Proof Sys2Proof.Machine

/-! ## Encoding (30_encoding.md) -/

/-- Decoding the word of a well-formed instruction gives it back, with every operand at every value the encoding
admits: no bit of an encoding is dropped. -/
def Obligations.DecodeOfEncode : Prop :=
  ∀ i : Instr, i.WellFormed → decode (encode i) = .ok i

/-- `encode(decode(w)) == w` for every valid word (R312), valid as 90_conflicts.md C8 defines it: zero in every bit the
format does not use, IRET's included. -/
def Obligations.EncodeOfDecode : Prop :=
  ∀ w : Word, validWord w = true → ∃ i, decode w = .ok i ∧ encode i = w

/-- The opcode in bits 31..27 selects exactly the instructions of R308, and opcodes 11 to 31 decode to none. Each has the
fields of its format: bits 26..22, 21..17 and 4..0, the 17 low bits sign-extended, the 22 low bits zero-extended (R302 to
R305, places that the spec derives from the source's field lists). JALR in the RRI layout, with its i17, is the spec's
own decision D4 (notes/assumptions/16.md). -/
def Obligations.OpcodeMapDecodesFields : Prop :=
  ∀ (w : Word) (rA rB rC : Reg) (i17 i22 : Word),
    rA.val = w.toNat / 2 ^ 22 % 32 → rB.val = w.toNat / 2 ^ 17 % 32 → rC.val = w.toNat % 32 →
    i17.toInt = (if w.toNat % 2 ^ 17 < 2 ^ 16 then ((w.toNat % 2 ^ 17 : Nat) : Int) else (w.toNat % 2 ^ 17 : Nat) - 2 ^ 17) →
    i22.toNat = w.toNat % 2 ^ 22 →
    (w.toNat / 2 ^ 27 = 0 → decode w = .ok (.jalr rA rB i17)) ∧
    (w.toNat / 2 ^ 27 = 1 → decode w = .ok (.add rA rB rC)) ∧
    (w.toNat / 2 ^ 27 = 2 → decode w = .ok (.addi rA rB i17)) ∧
    (w.toNat / 2 ^ 27 = 3 → decode w = .ok (.nand rA rB rC)) ∧
    (w.toNat / 2 ^ 27 = 4 → decode w = .ok (.lui rA i22)) ∧
    (w.toNat / 2 ^ 27 = 5 → decode w = .ok (.sw rA rB i17)) ∧
    (w.toNat / 2 ^ 27 = 6 → decode w = .ok (.lw rA rB i17)) ∧
    (w.toNat / 2 ^ 27 = 7 → decode w = .ok (.beq rA rB i17)) ∧
    (w.toNat / 2 ^ 27 = 8 → decode w = .ok (.wsr rA i22)) ∧
    (w.toNat / 2 ^ 27 = 9 → decode w = .ok (.rsr rA i22)) ∧
    (w.toNat / 2 ^ 27 = 10 → decode w = .ok .iret) ∧
    (11 ≤ w.toNat / 2 ^ 27 → ∃ op, decode w = .error (.reservedOpcode op) ∧ op.toNat = w.toNat / 2 ^ 27)

/-- R310: executing a word whose opcode is 11 or more raises IllegalOpcode with the word and its address
(the spec's own decision D6). -/
def Obligations.ReservedOpcodeFaults : Prop :=
  ∀ (s : State) (w : Word), s.status = .running → fetch s = .ok w → 11 ≤ w.toNat / 2 ^ 27 →
    step s = .fault (.illegalOpcode s.pc w)

/-- R309: bits an opcode does not use do not change the behaviour: bits 16..5 of ADD and NAND, bits 26..0 of IRET, the
i17 of JALR's link-and-jump case, and bits 9..3 of a page-table entry (the spec's own decision D7). -/
def Obligations.IgnoredBitsChangeNothing : Prop :=
  (∀ w v : Word, w.toNat / 2 ^ 27 = v.toNat / 2 ^ 27 → (w.toNat / 2 ^ 27 = 1 ∨ w.toNat / 2 ^ 27 = 3) →
    w.toNat / 2 ^ 17 = v.toNat / 2 ^ 17 → w.toNat % 32 = v.toNat % 32 → decode w = decode v) ∧
  (∀ w v : Word, w.toNat / 2 ^ 27 = 10 → v.toNat / 2 ^ 27 = 10 → decode w = decode v) ∧
  (∀ (rA rB : Reg) (i17 j17 : Word) (s : State), rA ≠ 0 ∨ rB ≠ 0 →
    exec (.jalr rA rB i17) s = exec (.jalr rA rB j17) s) ∧
  (∀ pte pte' addr : Word, pte.toNat / 2 ^ 10 = pte'.toNat / 2 ^ 10 → pte.toNat % 8 = pte'.toNat % 8 →
    pteFlags pte = pteFlags pte' ∧ translatedAddress pte addr = translatedAddress pte' addr)

/-- R306, R307: an immediate that the decoder reads lies in its field's range. -/
def Obligations.DecodedInstructionsAreWellFormed : Prop :=
  ∀ (w : Word) (i : Instr), decode w = .ok i → i.WellFormed

/-- A word of each family, written out from the encodings, decodes to its instruction (95_test_vectors.md 2.1). -/
def Obligations.SampleWordsDecode : Prop :=
  decode 0x07C20000 = .ok (.jalr 31 1 0) ∧ decode 0x0001FFFF = .ok (.jalr 0 0 0xFFFFFFFF) ∧
  decode 0x08C3FFE2 = .ok (.add 3 1 2) ∧ decode 0x10410000 = .ok (.addi 1 0 0xFFFF0000) ∧
  decode 0x207FFFFF = .ok (.lui 1 0x3FFFFF) ∧ decode 0x287A0000 = .ok (.sw 1 29 0) ∧
  decode 0x4FC00003 = .ok (.rsr 31 3) ∧ decode 0x57FFFFFF = .ok .iret ∧
  decode 0xFFFFFFFF = .error (.reservedOpcode 31)

/-! ## The integer ALU (42_integer.md) -/

/-- R440: `x[rA] <- x[rB] + x[rC]` modulo 2^32, nothing else changed, no exception. -/
def Obligations.AddWritesWrappedSum : Prop :=
  ∀ (rA rB rC : Reg) (s : State), ∃ t, exec (.add rA rB rC) s = .next t ∧
    (t.getX rA).toNat = ((s.getX rB).toNat + (s.getX rC).toNat) % 2 ^ 32 ∧ OnlyRegister rA s t

/-- R441: `x[rA] <- x[rB] + i17` modulo 2^32, i17 signed, nothing else changed, no exception. -/
def Obligations.AddiWritesWrappedSum : Prop :=
  ∀ (rA rB : Reg) (i17 : Word) (s : State), ∃ t, exec (.addi rA rB i17) s = .next t ∧
    (t.getX rA).toInt = ((s.getX rB).toInt + i17.toInt).bmod (2 ^ 32) ∧ OnlyRegister rA s t

/-- R442: every bit of x[rA] is the not-and of the bits of x[rB] and x[rC], nothing else changed, no exception. -/
def Obligations.NandWritesBitwiseNotAnd : Prop :=
  ∀ (rA rB rC : Reg) (s : State), ∃ t, exec (.nand rA rB rC) s = .next t ∧
    (∀ k, k < 32 → (t.getX rA).getLsbD k = !((s.getX rB).getLsbD k && (s.getX rC).getLsbD k)) ∧ OnlyRegister rA s t

/-- R443: `x[rA] <- i22 << 10`, exact for an i22 of 22 bits, nothing else changed, no exception. -/
def Obligations.LuiWritesUpperImmediate : Prop :=
  ∀ (rA : Reg) (i22 : Word) (s : State), ∃ t, exec (.lui rA i22) s = .next t ∧
    (t.getX rA).toNat = i22.toNat * 1024 % 2 ^ 32 ∧
    (i22InRange i22 = true → (t.getX rA).toNat = i22.toNat * 1024) ∧ OnlyRegister rA s t

/-- R404 with R440, R441, R442, R443, R461, R481 and R420: a result written to x[0] is gone at the boundary; a jump
through rA = 0 is a jump without link. -/
def Obligations.ResultsInX0AreDiscarded : Prop :=
  ∀ (a w : Word) (rB rC : Reg) (i17 i22 : Word) (s : State), s.status = .running →
    boundary a w (exec (.add 0 rB rC) s) = boundary a w (.next s) ∧
    boundary a w (exec (.addi 0 rB i17) s) = boundary a w (.next s) ∧
    boundary a w (exec (.nand 0 rB rC) s) = boundary a w (.next s) ∧
    boundary a w (exec (.lui 0 i22) s) = boundary a w (.next s) ∧
    (∀ c, access s (s.getX rB + i17) .load = .ok c → boundary a w (exec (.lw 0 rB i17) s) = boundary a w (.next s)) ∧
    (s.userMode = false → i22.toNat < 4 → boundary a w (exec (.rsr 0 i22) s) = boundary a w (.next s)) ∧
    (rB ≠ 0 → boundary a w (exec (.jalr 0 rB i17) s) = boundary a w (.next { s with pc := s.getX rB }))

/-! ## Loads and stores (43_loadstore.md) -/

/-- R461: where the access at x[rB] + i17 resolves to a cell, LW completes with that cell's value in x[rA] and nothing
else changed. -/
def Obligations.LwLoadsTheAccessedCell : Prop :=
  ∀ (rA rB : Reg) (i17 : Word) (s : State) (c : CellRef), access s (s.getX rB + i17) .load = .ok c →
    ∃ t, exec (.lw rA rB i17) s = .next t ∧ t.getX rA = c.read s ∧ OnlyRegister rA s t

/-- R460: where the access at x[rB] + i17 resolves to the word M[p], SW completes with M[p] = x[rA], and every byte
outside that word and every register is unchanged. Memory is canonical (an invariant: StepKeepsInvariant). -/
def Obligations.SwStoresOneWord : Prop :=
  ∀ (rA rB : Reg) (i17 : Word) (s : State) (p : Nat), s.mem.wf = true →
    access s (s.getX rB + i17) .store = .ok (.ram p) →
    ∃ t, exec (.sw rA rB i17) s = .next t ∧ t.mem.readWord p = s.getX rA ∧ SameMemoryExceptWord p s t ∧
      SameRegsExcept [] s t ∧ t.pc = s.pc ∧ SameSystem s t

/-- R460, R205, R218: a store to a device register completes, writes only that register, and stores no byte of memory. -/
def Obligations.SwWritesDeviceRegister : Prop :=
  ∀ (rA rB : Reg) (i17 : Word) (s : State) (c : CellRef), access s (s.getX rB + i17) .store = .ok c →
    (∀ p, c ≠ .ram p) →
    ∃ t, exec (.sw rA rB i17) s = .next t ∧
      t.cf = (if c = .clock then s.getX rA else s.cf) ∧
      t.tty.status = (if c = .ttyStatus then s.getX rA else s.tty.status) ∧
      t.tty.inReg = (if c = .ttyIn then s.getX rA else s.tty.inReg) ∧
      t.tty.outReg = (if c = .ttyOut then s.getX rA else s.tty.outReg) ∧
      SameMemory s t ∧ SameRegsExcept [] s t ∧ t.pc = s.pc ∧ t.sr = s.sr ∧ SameShadows s t ∧ t.ltr = s.ltr ∧
      t.ttyAttached = s.ttyAttached ∧ SameHost s t ∧ t.status = s.status

/-- R460, R461, R602: where the access raises, LW and SW raise the same fault at the instruction's address, pc - 1. -/
def Obligations.LwSwRaiseTheAccessFault : Prop :=
  ∀ (rA rB : Reg) (i17 : Word) (s : State) (r : Raise),
    (access s (s.getX rB + i17) .load = .error r → exec (.lw rA rB i17) s = .fault (r.toFault (s.pc - 1) none)) ∧
    (access s (s.getX rB + i17) .store = .error r → exec (.sw rA rB i17) s = .fault (r.toFault (s.pc - 1) none))

/-! ## The access path (20_memory.md) -/

/-- R205: an access to a present device's address returns its register, whatever the mode, the paging and the request
(decisions D12, D22); with no TTY attached, 0x20001 to 0x20003 take the ordinary path, here with paging off. -/
def Obligations.MmioBypassesPaging : Prop :=
  ∀ (s : State) (req : PageFlags),
    access s 0x20000 req = .ok .clock ∧
    (s.ttyAttached = true → access s 0x20001 req = .ok .ttyStatus ∧ access s 0x20002 req = .ok .ttyIn ∧
      access s 0x20003 req = .ok .ttyOut) ∧
    (s.ttyAttached = false → ∀ addr : Word, 0x20001 ≤ addr.toNat → addr.toNat ≤ 0x20003 →
      ¬ IsMmio s.ttyAttached addr ∧ (s.paging = false → access s addr req = .ok (.ram addr.toNat)))

/-- R207: with S0.Paging clear, the physical address of a non-MMIO access is the virtual address, in either mode and
whatever is requested. -/
def Obligations.UnpagedAccessIsPhysical : Prop :=
  ∀ (s : State) (addr : Word) (req : PageFlags), s.paging = false → ¬ IsMmio s.ttyAttached addr →
    addr.toNat < 2 ^ 20 → access s addr req = .ok (.ram addr.toNat)

/-- R208: a paged non-MMIO access with S[1] not a multiple of 1024 raises Segfault. -/
def Obligations.PageTableBaseMustBeAligned : Prop :=
  ∀ (s : State) (addr : Word) (req : PageFlags), s.paging = true → ¬ IsMmio s.ttyAttached addr →
    s.s1.toNat % 1024 ≠ 0 → access s addr req = .error (.segfault .pageTableBaseMisaligned)

/-- R209: a page-table entry index `(s[1] + (addr >> 10)) mod 2^32` of 2^20 or more raises Segfault (decisions D2, D11). -/
def Obligations.PageTableIndexMustBeInMemory : Prop :=
  ∀ (s : State) (addr : Word) (req : PageFlags), s.paging = true → ¬ IsMmio s.ttyAttached addr →
    s.s1.toNat % 1024 = 0 → 2 ^ 20 ≤ (s.s1.toNat + addr.toNat / 1024) % 2 ^ 32 →
    access s addr req = .error (.segfault .pageTableIndexOutOfRange)

/-- R211: fetch needs R and X, LW needs R, SW needs W; an entry without a requested flag raises NotPermitted, and an
entry with no flag fails all three. -/
def Obligations.PageFlagsAreRequired : Prop :=
  ∀ (s : State) (addr : Word), s.paging = true → ¬ IsMmio s.ttyAttached addr → s.s1.toNat % 1024 = 0 →
    pteIndex s addr < 2 ^ 20 →
    (access s addr .fetch = .error (.notPermitted .pageFlag) ↔
      ((pteOf s addr).getLsbD 2 = false ∨ (pteOf s addr).getLsbD 0 = false)) ∧
    (access s addr .load = .error (.notPermitted .pageFlag) ↔ (pteOf s addr).getLsbD 2 = false) ∧
    (access s addr .store = .error (.notPermitted .pageFlag) ↔ (pteOf s addr).getLsbD 1 = false) ∧
    ((pteOf s addr).toNat % 8 = 0 → ∀ req, req = .fetch ∨ req = .load ∨ req = .store →
      access s addr req = .error (.notPermitted .pageFlag))

/-- R213: a physical address of 2^20 or more raises Segfault, with paging off and, once the flags are granted, with
paging on. -/
def Obligations.PhysicalAddressMustBeInMemory : Prop :=
  ∀ (s : State) (addr : Word) (req : PageFlags), ¬ IsMmio s.ttyAttached addr →
    (s.paging = false → 2 ^ 20 ≤ addr.toNat → access s addr req = .error (.segfault .physicalOutOfRange)) ∧
    (s.paging = true → s.s1.toNat % 1024 = 0 → pteIndex s addr < 2 ^ 20 →
      req.subset (pteFlags (pteOf s addr)) = true → 2 ^ 20 ≤ pagedAddress (pteOf s addr) addr →
      access s addr req = .error (.segfault .physicalOutOfRange))

/-- R212: a paged access with its flags granted reaches the word at the entry's page base plus the low 10 bits of the
address. -/
def Obligations.PagedAccessReachesTheMappedWord : Prop :=
  ∀ (s : State) (addr : Word) (req : PageFlags), s.paging = true → ¬ IsMmio s.ttyAttached addr →
    s.s1.toNat % 1024 = 0 → pteIndex s addr < 2 ^ 20 → req.subset (pteFlags (pteOf s addr)) = true →
    (pteOf s addr).toNat / 1024 * 1024 + addr.toNat % 1024 < 2 ^ 20 →
    access s addr req = .ok (.ram ((pteOf s addr).toNat / 1024 * 1024 + addr.toNat % 1024))

/-- R220, R224: what a store wrote is what the next fetch or load of the same cell reads, whatever virtual address
either used. -/
def Obligations.StoreIsSeenByTheNextAccess : Prop :=
  ∀ (s t : State) (addr v addr' : Word) (c : CellRef), s.mem.wf = true → access s addr .store = .ok c →
    memWrite s addr v = .ok t →
    (access t addr' .fetch = .ok c → fetch { t with pc := addr' } = .ok v) ∧
    (access t addr' .load = .ok c → memRead t addr' = .ok v)

/-! ## Control transfer (41_control.md) -/

/-- R420, link and jump: x[rA] is the return address, and the pc is x[rB], or the link itself when rA = rB (the
spec's own decision D3). -/
def Obligations.JalrLinksAndJumps : Prop :=
  ∀ (rA rB : Reg) (i17 : Word) (s : State), rA ≠ 0 ∨ rB ≠ 0 →
    ∃ t, exec (.jalr rA rB i17) s = .next t ∧ t.getX rA = s.pc ∧
      t.pc = (if rA = rB then s.pc else s.getX rB) ∧
      SameRegsExcept [rA] s t ∧ SameMemory s t ∧ SameSystem s t

/-- R420, R406: JALR with rA = rB = 0 while Interrupts is clear halts, in either mode, and changes nothing else. -/
def Obligations.JalrHaltsWithInterruptsOff : Prop :=
  ∀ (i17 : Word) (s : State), s.interrupts = false →
    ∃ t, exec (.jalr 0 0 i17) s = .next t ∧ t.status = .halted ∧ SameRegsExcept [] s t ∧ t.pc = s.pc ∧
      SameMemory s t ∧ t.sr = s.sr ∧ SameShadows s t ∧ SameDevices s t ∧ SameHost s t

/-- R420, R610: JALR with rA = rB = 0 while Interrupts is set takes the software trap with code i17 (decision D4), in
either mode. -/
def Obligations.JalrTrapsWithInterruptsOn : Prop :=
  ∀ (i17 : Word) (s : State), s.interrupts = true → EntryReady i17 s →
    ∃ t, exec (.jalr 0 0 i17) s = .next t ∧ Entered i17 s t

/-- R421: BEQ goes to pc + i17, pc being the incremented pc, modulo 2^32 (decision D2), when the two registers are equal,
and on otherwise; nothing else changes. -/
def Obligations.BeqBranchesOnEquality : Prop :=
  ∀ (rA rB : Reg) (i17 : Word) (s : State),
    ∃ t, exec (.beq rA rB i17) s = .next t ∧
      (s.getX rA = s.getX rB → t.pc.toNat = (s.pc.toNat + i17.toNat) % 2 ^ 32) ∧
      (s.getX rA ≠ s.getX rB → t.pc = s.pc) ∧
      SameRegsExcept [] s t ∧ SameMemory s t ∧ SameSystem s t

/-! ## System instructions (44_system.md) -/

/-- R480: in kernel mode with an index below 4, WSR stores all 32 bits of x[rA] in that status register (decisions
D8, D9) and changes nothing else. -/
def Obligations.WsrWritesTheStatusRegister : Prop :=
  ∀ (rA : Reg) (i22 : Word) (k : Fin 4) (s : State), s.userMode = false → i22.toNat = k.val →
    ∃ t, exec (.wsr rA i22) s = .next t ∧ t.getS k = s.getX rA ∧ (∀ j, j ≠ k → t.getS j = s.getS j) ∧
      SameRegsExcept [] s t ∧ t.pc = s.pc ∧ SameMemory s t ∧ SameShadows s t ∧ SameDevices s t ∧ SameHost s t ∧
      t.status = s.status

/-- R481: in kernel mode with an index below 4, RSR loads that status register into x[rA] (decision D8) and changes
nothing else. -/
def Obligations.RsrReadsTheStatusRegister : Prop :=
  ∀ (rA : Reg) (i22 : Word) (k : Fin 4) (s : State), s.userMode = false → i22.toNat = k.val →
    ∃ t, exec (.rsr rA i22) s = .next t ∧ t.getX rA = s.getS k ∧ OnlyRegister rA s t

/-- R480, R481, R482, R621: WSR, RSR and IRET raise NotPermitted in user mode, whatever the index; in kernel mode WSR and
RSR raise it for an index of 4 or more. Which cause stands in the fault when both hold is the model's choice
(notes/assumptions/7.md): the user-mode one; R616 says that the order of the two tests cannot be observed. -/
def Obligations.PrivilegedInstructionsNotPermitted : Prop :=
  ∀ (rA : Reg) (i22 : Word) (s : State),
    (s.userMode = true →
      exec (.wsr rA i22) s = .fault (.notPermitted .statusRegisterInUserMode (s.pc - 1) none) ∧
      exec (.rsr rA i22) s = .fault (.notPermitted .statusRegisterInUserMode (s.pc - 1) none) ∧
      exec .iret s = .fault (.notPermitted .iretInUserMode (s.pc - 1) none)) ∧
    (s.userMode = false → 4 ≤ i22.toNat →
      exec (.wsr rA i22) s = .fault (.notPermitted .badStatusIndex (s.pc - 1) none) ∧
      exec (.rsr rA i22) s = .fault (.notPermitted .badStatusIndex (s.pc - 1) none))

/-- R482: in kernel mode IRET restores S[0], x[29] and the pc from IS0, ISP and IPC, leaves the shadows as they were, and
changes nothing else; in user mode it raises NotPermitted, its address written pc - 1 (notes/assumptions/7.md). -/
def Obligations.IretRestoresFromTheShadows : Prop :=
  ∀ s : State,
    (s.userMode = false →
      ∃ t, exec .iret s = .next t ∧ t.s0 = s.is0 ∧ t.getX 29 = s.isp ∧ t.pc = s.ipc ∧
        SameShadows s t ∧ (∀ k, k ≠ 0 → t.getS k = s.getS k) ∧ SameRegsExcept [29] s t ∧ SameMemory s t ∧
        SameDevices s t ∧ SameHost s t ∧ t.status = s.status) ∧
    (s.userMode = true → exec .iret s = .fault (.notPermitted .iretInUserMode (s.pc - 1) none))

/-! ## Interrupt entry (60_exceptions.md) -/

/-- R605, R608, R609: entry with ready bases and vector saves IS0, ISP and IPC, loads x[29] from S[3], clears UserMode,
Paging and Interrupts, goes to the vector word, and changes nothing else (decisions D13, D14). -/
def Obligations.EntrySavesAndSwitches : Prop :=
  ∀ (code : Word) (s : State), EntryReady code s → ∃ t, interrupt code s = .ok t ∧ Entered code s t

/-- R607: entry with S[2], and then S[3], not a multiple of 1024 raises Segfault, and so does a vector outside memory
(the order is the spec's decision D14). -/
def Obligations.EntryFaultsInOrder : Prop :=
  ∀ (code : Word) (s : State),
    (s.s2.toNat % 1024 ≠ 0 → interrupt code s = .error (.segfault .vectorBaseMisaligned)) ∧
    (s.s2.toNat % 1024 = 0 → s.s3.toNat % 1024 ≠ 0 →
      interrupt code s = .error (.segfault .interruptStackMisaligned)) ∧
    (s.s2.toNat % 1024 = 0 → s.s3.toNat % 1024 = 0 → 2 ^ 20 ≤ s.s2.toNat + vectorCode code →
      interrupt code s = .error (.segfault .vectorOutOfRange))

/-- R606: compared as an unsigned number, a code of 16 or more is code 0, so every negative trap code is
(decision D5). -/
def Obligations.LargeCodesAreCodeZero : Prop :=
  ∀ (code : Word) (s : State), (16 ≤ code.toNat → interrupt code s = interrupt 0 s) ∧
    (code.toInt < 0 → interrupt code s = interrupt 0 s)

/-- R482, R608: an IRET in kernel mode after an entry, with the shadows as the entry left them, restores the pc, x[29] and
S[0] exactly to their values before the entry. -/
def Obligations.IretUndoesEntry : Prop :=
  ∀ (code : Word) (s t u : State), interrupt code s = .ok t → SameShadows t u → u.userMode = false →
    ∃ v, exec .iret u = .next v ∧ v.pc = s.pc ∧ v.getX 29 = s.getX 29 ∧ v.s0 = s.s0

/-! ## The poll (60_exceptions.md) -/

/-- R611: with S0.Interrupts clear the poll is a no-op. -/
def Obligations.PollIsMaskedByInterrupts : Prop :=
  ∀ s : State, s.interrupts = false → poll s = .ok s

/-- R612, R614: with CF milliseconds or more passed since LTR, the poll updates LTR and enters vector 1 with all that
entry does and nothing else changed, and does not probe the TTY. Decisions D17, D20. For every value of the time drawn
(`s.now`: scheduled, or the free value of notes/assumptions/3.md). -/
def Obligations.ClockInterruptFires : Prop :=
  ∀ (s : State) (l : Nat), s.interrupts = true → s.cf ≠ 0 → s.ltr = some l → s.cf.toNat * 1000000 ≤ s.now - l →
    EntryReady 1 s →
    SameCore s s.clockFired ∧ s.clockFired.ltr = some s.now ∧ s.clockFired.hostNow = s.now ∧
      s.clockFired.tty = s.tty ∧ s.clockFired.ttyProbes = s.ttyProbes ∧ s.clockFired.ttyReplies = s.ttyReplies ∧
    ∃ t, poll s = .ok t ∧ Entered 1 s.clockFired t ∧ t.ltr = some s.now ∧ t.pc = s.mem.readWord (s.s2.toNat + 1) ∧
      t.ipc = s.pc ∧ t.is0 = s.s0 ∧ t.isp = s.getX 29 ∧ t.getX 29 = s.s3 ∧ t.userMode = false ∧ t.paging = false ∧
      t.interrupts = false ∧ t.hostNow = s.now ∧ t.tty = s.tty ∧ t.ttyProbes = s.ttyProbes ∧ t.mem = s.mem

/-- R612, R613: with less than CF milliseconds passed since LTR, LTR is left alone and the poll goes on to the TTY check
(decision D17), nothing else changed but the draw. -/
def Obligations.ClockNotDueGoesOnToTheTty : Prop :=
  ∀ (s : State) (l : Nat), s.interrupts = true → s.cf ≠ 0 → s.ltr = some l → s.now - l < s.cf.toNat * 1000000 →
    poll s = pollTty s.clockChecked ∧ SameCore s s.clockChecked ∧ s.clockChecked.ltr = some l ∧
      s.clockChecked.hostNow = s.now ∧ s.clockChecked.tty = s.tty ∧ s.clockChecked.ttyProbes = s.ttyProbes ∧
      s.clockChecked.ttyReplies = s.ttyReplies

/-- R612: at the check that records LTR for the first time the clock cannot fire; LTR becomes the time drawn
(decision D18), nothing else changed but the draw, and the poll goes on to the TTY check. -/
def Obligations.FirstClockCheckNeverFires : Prop :=
  ∀ s : State, s.interrupts = true → s.cf ≠ 0 → s.ltr = none →
    poll s = pollTty s.clockChecked ∧ SameCore s s.clockChecked ∧ s.clockChecked.ltr = some s.now ∧
      s.clockChecked.hostNow = s.now ∧ s.clockChecked.tty = s.tty ∧ s.clockChecked.ttyProbes = s.ttyProbes ∧
      s.clockChecked.ttyReplies = s.ttyReplies

/-- R613: the TTY check, in every state: with no TTY nothing happens, and an attached one is probed. NotPending goes on
with the device's updates made, Error raises DeviceError, Pending enters vector 2 with the updates made and all that
entry does. The probe changes nothing but the TTY registers. With the clock disabled the poll is this check; with CF not
0 and no clock interrupt, ClockNotDueGoesOnToTheTty and FirstClockCheckNeverFires hand over to it. Decision D19; the
reply is free, notes/assumptions/4.md. -/
def Obligations.TtyCheckFollowsTheProbe : Prop :=
  ∀ s : State,
    (s.ttyAttached = false → pollTty s = .ok s) ∧
    (s.ttyAttached = true → s.nextTtyReply.answer = .notPending → pollTty s = .ok s.afterProbe) ∧
    (s.ttyAttached = true → s.nextTtyReply.answer = .error → pollTty s = .error .deviceError) ∧
    (s.ttyAttached = true → s.nextTtyReply.answer = .pending → EntryReady 2 s →
      ∃ t, pollTty s = .ok t ∧ Entered 2 s.afterProbe t) ∧
    (SameCore s s.afterProbe ∧ s.afterProbe.ltr = s.ltr ∧ s.afterProbe.hostNow = s.hostNow ∧
      s.afterProbe.nowSteps = s.nowSteps ∧ s.afterProbe.nowDraws = s.nowDraws) ∧
    (s.interrupts = true → s.cf = 0 → poll s = pollTty s)

/-- R613, R626: what a probe makes of the TTY registers. The device never sets TTYOut and never clears TTYIn, leaves status
bits 31..2, and a TTYIn that it sets comes with a byte in the input register. Within that it does what its reply asks
(notes/assumptions/4.md): TTYIn after is old or asked, TTYOut after is old and asked, the input register is the reply's,
cut to its low byte when TTYIn is newly set, and the output register is the reply's. For every reply, scheduled or free
(decisions D19, D21). -/
def Obligations.TtyProbeKeepsTheProtocol : Prop :=
  ∀ s : State,
    (s.tty.status.getLsbD 1 = false → s.afterProbe.tty.status.getLsbD 1 = false) ∧
    (s.tty.status.getLsbD 0 = true → s.afterProbe.tty.status.getLsbD 0 = true) ∧
    (∀ k, 2 ≤ k → s.afterProbe.tty.status.getLsbD k = s.tty.status.getLsbD k) ∧
    (s.tty.status.getLsbD 0 = false → s.afterProbe.tty.status.getLsbD 0 = true →
      s.afterProbe.tty.inReg.toNat < 256) ∧
    (s.afterProbe.tty.status.getLsbD 0 = (s.tty.status.getLsbD 0 || s.nextTtyReply.regs.status.getLsbD 0)) ∧
    (s.afterProbe.tty.status.getLsbD 1 = (s.tty.status.getLsbD 1 && s.nextTtyReply.regs.status.getLsbD 1)) ∧
    (s.tty.status.getLsbD 0 = false → s.nextTtyReply.regs.status.getLsbD 0 = true →
      s.afterProbe.tty.inReg.toNat = s.nextTtyReply.regs.inReg.toNat % 256) ∧
    (s.tty.status.getLsbD 0 = true ∨ s.nextTtyReply.regs.status.getLsbD 0 = false →
      s.afterProbe.tty.inReg = s.nextTtyReply.regs.inReg) ∧
    s.afterProbe.tty.outReg = s.nextTtyReply.regs.outReg

/-- R617, R405: a software trap clears Interrupts, so no hardware interrupt is delivered at that boundary. -/
def Obligations.NoPollDeliveryAfterATrap : Prop :=
  ∀ (a w i17 : Word) (s : State), s.status = .running → s.interrupts = true → EntryReady i17 s →
    ∃ t, exec (.jalr 0 0 i17) s = .next t ∧ boundary a w (exec (.jalr 0 0 i17) s) = .next t.forceX0

/-! ## The step (40_cycle.md) -/

/-- R400: a step fetches, advances the pc, decodes, executes, and then does what the instruction boundary does. -/
def Obligations.StepRunsTheDecodedInstruction : Prop :=
  ∀ (s : State) (w : Word) (i : Instr), s.status = .running → fetch s = .ok w → decode w = .ok i →
    step s = boundary s.pc w (exec i { s with pc := s.pc + 1 })

/-- R404, R405: after an instruction that completes, x[0] is forced to 0 and the poll runs; every other register and
everything else reach the poll as the instruction left them. A fault of the poll carries the address and the word of the
instruction before it: R602 (the spec's own decision D15), read so by the model (notes/assumptions/7.md). -/
def Obligations.BoundaryForcesX0AndPolls : Prop :=
  ∀ (a w : Word) (t : State), t.status = .running →
    ∃ u, u.getX 0 = 0 ∧ (∀ r, r ≠ 0 → u.getX r = t.getX r) ∧ u.pc = t.pc ∧ SameMemory t u ∧ SameSystem t u ∧
      (∀ v, poll u = .ok v → boundary a w (.next t) = .next v) ∧
      (∀ r, poll u = .error r → boundary a w (.next t) = .fault (r.toFault a (some w)))

/-- R401, R204, R602: fetch is the access at the pc that requests R and X. Where it resolves to a cell the word is that
cell's value; where it raises, the step faults with the cause at the address the fetch started from and no word. A fault
of the instruction is reported with that address and the fetched word (decision D15; notes/assumptions/7.md). -/
def Obligations.FaultsCarryAddressAndWord : Prop :=
  (∀ (s : State) (c : CellRef), access s s.pc { r := true, w := false, x := true } = .ok c →
    fetch s = .ok (c.read s)) ∧
  (∀ (s : State) (r : Raise), s.status = .running →
    access s s.pc { r := true, w := false, x := true } = .error r →
    fetch s = .error r ∧ step s = .fault (r.toFault s.pc none)) ∧
  (∀ (s : State) (r : Raise), s.status = .running → fetch s = .error r → step s = .fault (r.toFault s.pc none)) ∧
  (∀ (s : State) (w : Word) (i : Instr) (r : Raise), s.status = .running → fetch s = .ok w → decode w = .ok i →
    exec i { s with pc := s.pc + 1 } = .fault (r.toFault (s.pc + 1 - 1) none) → step s = .fault (r.toFault s.pc (some w)))

/-- R406, R400: a fetched `halt` with Interrupts clear leaves pc = a + 1 and status Halted, with no poll (decision
D24), and after it no step runs (the refusal `runOver`, notes/assumptions/6.md). -/
def Obligations.HaltEndsTheRun : Prop :=
  ∀ (s : State) (w i17 : Word), s.status = .running → fetch s = .ok w → decode w = .ok (.jalr 0 0 i17) →
    s.interrupts = false →
    ∃ t, step s = .next t ∧ t.status = .halted ∧ t.pc = s.pc + 1 ∧ SameRegsExcept [] s t ∧ SameMemory s t ∧
      t.sr = s.sr ∧ SameShadows s t ∧ SameDevices s t ∧ SameHost s t ∧ step t = .refused .runOver

/-! ## The whole machine -/

/-- Every step keeps the invariant: memory canonical, x[0] zero at the boundary, LTR not after the host's time. -/
def Obligations.StepKeepsInvariant : Prop :=
  ∀ s t : State, s.Inv → step s = .next t → t.Inv

/-- The invariant holds after reset, with any image that fits, a TTY or none, and whatever the host has scheduled. -/
def Obligations.ResetMeetsInvariant : Prop :=
  State.reset.Inv ∧ ∀ (image : List Word) (attached : Bool) (nowSteps : List Nat) (replies : List TtyReply),
    (bootState image attached nowSteps replies).Inv

/-- R101: x[0] is 0 after every instruction, a halt included, if it was 0 before it. -/
def Obligations.X0IsZeroAfterEveryStep : Prop :=
  ∀ s t : State, s.getX 0 = 0 → step s = .next t → t.getX 0 = 0

/-- R621, R622: a step from user mode leaves S[0] to S[3] and the shadows as they were, unless it enters an interrupt or a
trap: then it is in kernel mode with Paging and Interrupts clear, IS0 holds the user's S[0], the other status
registers are unchanged, x[29] is S[3] and the pc is a word of the vector table. -/
def Obligations.UserModeLeavesOnlyThroughTheVectors : Prop :=
  ∀ s t : State, s.userMode = true → step s = .next t →
    (t.sr = s.sr ∧ SameShadows s t) ∨
    (t.userMode = false ∧ t.paging = false ∧ t.interrupts = false ∧ t.is0 = s.s0 ∧ t.s1 = s.s1 ∧ t.s2 = s.s2 ∧
      t.s3 = s.s3 ∧ t.getX 29 = s.s3 ∧ ∃ k, k < 16 ∧ t.pc = t.mem.readWord (s.s2.toNat + k))

/-- R622: kernel mode turns into user mode only by a WSR to S[0] of a value with bit 0 set, or by an IRET with
IS0.UserMode = 1. -/
def Obligations.UserModeIsEnteredOnlyByWsrOrIret : Prop :=
  ∀ s t : State, s.userMode = false → step s = .next t → t.userMode = true →
    ∃ w i, fetch s = .ok w ∧ decode w = .ok i ∧
      ((∃ rA i22, i = .wsr rA i22 ∧ i22 = 0 ∧ (s.getX rA).getLsbD 0 = true) ∨ (i = .iret ∧ s.is0.getLsbD 0 = true))

/-- A byte of memory changes in a step only if the step runs a SW whose access resolves to the word that holds it. -/
def Obligations.OnlySwChangesMemory : Prop :=
  ∀ (s t : State) (a : Nat), step s = .next t → t.mem.readByte a ≠ s.mem.readByte a →
    ∃ w rA rB i17 p, fetch s = .ok w ∧ decode w = .ok (.sw rA rB i17) ∧
      access s (s.getX rB + i17) .store = .ok (.ram p) ∧ 4 * p ≤ a ∧ a < 4 * p + 4

/-- With paging on, in either mode, a step changes a byte of memory only inside a page that some entry of the page table
at S[1] maps with the W flag (R210 to R214): the isolation that paging gives. -/
def Obligations.PagedStoresStayInWritablePages : Prop :=
  ∀ (s t : State) (a : Nat), s.paging = true → step s = .next t → t.mem.readByte a ≠ s.mem.readByte a →
    s.s1.toNat % 1024 = 0 ∧ ∃ k, k < 2 ^ 22 ∧ (s.s1.toNat + k) % 2 ^ 32 < 2 ^ 20 ∧
      (s.mem.readWord ((s.s1.toNat + k) % 2 ^ 32)).getLsbD 1 = true ∧
      a / 4 / 1024 = (s.mem.readWord ((s.s1.toNat + k) % 2 ^ 32)).toNat / 1024

/-- Decision D17 and R630: the host's time never goes back in a step, and no step attaches or detaches the TTY. -/
def Obligations.TimeAdvancesAndTtyStays : Prop :=
  ∀ s t : State, step s = .next t → s.hostNow ≤ t.hostNow ∧ t.ttyAttached = s.ttyAttached

/-! ## Reset (70_reset_and_hazards.md) -/

/-- R700: every register is 0, LTR is unset and the core is running, in kernel mode with paging and interrupts off (the
values beyond pc and the GPRs are the spec's decisions D16, D18). -/
def Obligations.ResetRegisters : Prop :=
  ∀ (image : List Word) (attached : Bool) (nowSteps : List Nat) (replies : List TtyReply) (s : State),
    s = State.reset ∨ s = bootState image attached nowSteps replies →
    (∀ r, s.getX r = 0) ∧ s.pc = 0 ∧ (∀ k, s.getS k = 0) ∧ s.ipc = 0 ∧ s.is0 = 0 ∧ s.isp = 0 ∧ s.cf = 0 ∧
      s.ltr = none ∧ s.tty.status = 0 ∧ s.tty.inReg = 0 ∧ s.tty.outReg = 0 ∧ s.status = .running ∧
      s.userMode = false ∧ s.paging = false ∧ s.interrupts = false

/-- R120, R701: after reset M holds the image from word 0 on and zeros above it, so the first fetch reads the image's first
word, or 0 if it is empty (decision D30). -/
def Obligations.ResetMemoryHoldsTheImage : Prop :=
  ∀ (image : List Word) (attached : Bool) (nowSteps : List Nat) (replies : List TtyReply), image.length ≤ 2 ^ 20 →
    (∀ p, (bootState image attached nowSteps replies).mem.readWord p = (image[p]?).getD 0) ∧
    fetch (bootState image attached nowSteps replies) = .ok ((image[0]?).getD 0)

/-! ## The assembler (30_encoding.md) -/

/-- R341: `movi rA imm`, imm a literal or a label with a value in [0, 2^32-1], emits two words, a LUI of `imm >> 10` and an
ADDI of `imm & 0x3FF`, that leave x[rA] = imm once both have executed, each with its boundary's x[0] force
(decision D27). -/
def Obligations.MoviLoadsItsOperand : Prop :=
  ∀ (labels : Asm.Labels) (line index : Nat) (rA : Reg) (imm : Asm.Imm) (v : Int) (s : State),
    Asm.resolve labels line imm = .ok v → 0 ≤ v → v < 2 ^ 32 →
    ∃ w1 w2 t u, Asm.emit labels line index (.movi rA imm) = .ok [w1, w2] ∧
      decode w1 = .ok (.lui rA (BitVec.ofInt 32 v >>> 10)) ∧
      decode w2 = .ok (.addi rA rA (BitVec.ofInt 32 v &&& 0x3FF)) ∧
      exec (.lui rA (BitVec.ofInt 32 v >>> 10)) s = .next t ∧
      exec (.addi rA rA (BitVec.ofInt 32 v &&& 0x3FF)) t.forceX0 = .next u ∧
      u.forceX0.getX rA = if rA = 0 then 0 else BitVec.ofInt 32 v

/-- R332: a BEQ assembled at an index for a target, a literal or a label, within its reach decodes to a BEQ whose offset,
added to index + 1, is the target; a target out of reach is rejected. -/
def Obligations.BeqAssemblesItsTarget : Prop :=
  ∀ (labels : Asm.Labels) (line index : Nat) (rA rB : Reg) (imm : Asm.Imm) (target : Int),
    Asm.resolve labels line imm = .ok target →
    (-65536 ≤ target - (index + 1) → target - (index + 1) ≤ 65535 →
      ∃ w i17, Asm.emit labels line index (.beq rA rB imm) = .ok [w] ∧ decode w = .ok (.beq rA rB i17) ∧
        i17.toInt = target - (index + 1) ∧ BitVec.ofNat 32 (index + 1) + i17 = BitVec.ofInt 32 target) ∧
    (target - (index + 1) < -65536 ∨ 65535 < target - (index + 1) →
      Asm.emit labels line index (.beq rA rB imm) = .error (.immediateOutOfRange 17 line))

/-! ## Interrupt entry that raises (60_exceptions.md, 41_control.md) -/

/-- R420, R607, R611, R613: where entry raises Segfault (F8 to F10), the software trap raises it at the instruction's
address, pc - 1, the poll raises it when the clock is due, and the TTY check raises it when the device answers Pending,
with CF = 0 as the whole of the poll. The order of the causes is the spec's decision D14. For every value of the time
and of the reply, scheduled or free (notes/assumptions/3.md, 4.md). -/
def Obligations.TrapAndPollRaiseTheEntryFault : Prop :=
  ∀ (s : State) (why : SegfaultCause), s.interrupts = true →
    (∀ i17, EntryRaises i17 s why → exec (.jalr 0 0 i17) s = .fault (.segfault why (s.pc - 1) none)) ∧
    (∀ l, s.cf ≠ 0 → s.ltr = some l → s.cf.toNat * 1000000 ≤ s.now - l → EntryRaises 1 s why →
      poll s = .error (.segfault why)) ∧
    (s.ttyAttached = true → s.nextTtyReply.answer = .pending → EntryRaises 2 s why →
      pollTty s = .error (.segfault why) ∧ (s.cf = 0 → poll s = .error (.segfault why)))
end

