-- ==== Sys2Proof/Laws/Assembler.lean ====
section
/-! SUPPORT. What the assembler's range checks and its size check answer (30_encoding.md R326, R345). -/

namespace Sys2Proof.Asm

theorem signed64_eq {line : Nat} {v : Int} (h : -(2 ^ 63) ≤ v ∧ v < 2 ^ 63) : signed64 line v = .ok v := if_pos h

theorem signed64_cases {line : Nat} {v x : Int} (h : signed64 line v = .ok x) :
    x = v ∧ -(2 ^ 63) ≤ v ∧ v < 2 ^ 63 := by
  unfold signed64 at h
  split at h
  · injection h with h
    exact ⟨h.symm, ‹_›⟩
  · cases h

/-- Resolution produces a signed 64-bit value (R326): the literal, or the index of a defined label. -/
theorem resolve_cases {labels : Labels} {line : Nat} {imm : Imm} {v : Int} (h : resolve labels line imm = .ok v) :
    (-(2 ^ 63) ≤ v ∧ v < 2 ^ 63) ∧
      (imm = .lit v ∨ ∃ name k, imm = .label name ∧ lookupLabel labels name = some k ∧ v = (k : Int)) := by
  cases imm with
  | lit w =>
    obtain ⟨rfl, hr⟩ := signed64_cases h
    exact ⟨hr, .inl rfl⟩
  | label name =>
    simp only [resolve] at h
    split at h
    · rename_i k hk
      obtain ⟨rfl, hr⟩ := signed64_cases h
      exact ⟨hr, .inr ⟨name, k, rfl, hk, rfl⟩⟩
    · cases h

theorem signedField_eq {bits line : Nat} {v : Int} (h : -(2 ^ (bits - 1)) ≤ v ∧ v < 2 ^ (bits - 1)) :
    signedField bits line v = .ok (BitVec.ofInt 32 v) := by
  unfold signedField; exact if_pos h

theorem signedField_error {bits line : Nat} {v : Int} (h : ¬ (-(2 ^ (bits - 1)) ≤ v ∧ v < 2 ^ (bits - 1))) :
    signedField bits line v = .error (.immediateOutOfRange bits line) := by
  unfold signedField; exact if_neg h

theorem unsignedField_eq {bits line : Nat} {v : Int} (h : 0 ≤ v ∧ v < 2 ^ bits) :
    unsignedField bits line v = .ok (BitVec.ofInt 32 v) := by
  unfold unsignedField; exact if_pos h

theorem unsignedField_error {bits line : Nat} {v : Int} (h : ¬ (0 ≤ v ∧ v < 2 ^ bits)) :
    unsignedField bits line v = .error (.immediateOutOfRange bits line) := by
  unfold unsignedField; exact if_neg h

/-- The size check passes exactly when all the words fit in the memory (R345). -/
theorem checkSize_ok_iff {index : Nat} {ls : List Line} (hi : index ≤ Machine.memWords) :
    checkSize index ls = .ok () ↔ index + (ls.map Line.size).sum ≤ Machine.memWords := by
  induction ls generalizing index with
  | nil => simpa [checkSize] using hi
  | cons l ls ih =>
    rw [checkSize, List.map_cons, List.sum_cons]
    split
    · constructor
      · intro h; cases h
      · intro h; omega
    · rw [ih (by omega)]
      omega

end Sys2Proof.Asm
end

