-- ==== Sys2Proof/Laws/Decode.lean ====
section
/-! SUPPORT. What each field of an encoded word reads as, and what the decoder gives per opcode. -/

namespace Sys2Proof

theorem ofNat_reg (r : Reg) : BitVec.ofNat 32 r.val = (BitVec.ofFin (w := 5) r).setWidth 32 := by
  apply BitVec.eq_of_toNat_eq
  simp

/-- The bits of the head of a word: the opcode, then rA, then zeros. -/
theorem getLsbD_encodeHead (op : BitVec 5) (rA : Reg) (i : Nat) (hi : i < 32) :
    (encodeHead op rA).getLsbD i =
      if i < 22 then false else if i < 27 then (BitVec.ofFin (w := 5) rA).getLsbD (i - 22) else op.getLsbD (i - 27) := by
  rw [encodeHead, ofNat_reg, BitVec.getLsbD_or]
  simp only [BitVec.getLsbD_shiftLeft, BitVec.getLsbD_setWidth, hi, decide_true, Bool.true_and]
  split_ifs with h1 h2
  · simp [h1, show i < 27 by omega]
  · simp [h1, h2, show i - 22 < 32 by omega]
  · rw [BitVec.getLsbD_of_ge (BitVec.ofFin (w := 5) rA) (i - 22) (by omega)]
    simp [h2, show i - 27 < 32 by omega]

/-- The bits of a register number moved to bit `lo`. -/
theorem getLsbD_regShifted (r : Reg) (lo i : Nat) (hi : i < 32) :
    (BitVec.ofNat 32 r.val <<< lo).getLsbD i = (decide (lo ≤ i) && (BitVec.ofFin (w := 5) r).getLsbD (i - lo)) := by
  rw [ofNat_reg]
  simp only [BitVec.getLsbD_shiftLeft, BitVec.getLsbD_setWidth, hi, decide_true, Bool.true_and]
  by_cases h : lo ≤ i
  · simp [h, show ¬ i < lo by omega, show i - lo < 32 by omega]
  · simp [h, show i < lo by omega]

theorem getLsbD_mask17 (i : Nat) (hi : i < 32) : (0x1FFFF : Word).getLsbD i = decide (i < 17) := by
  revert i; decide

theorem getLsbD_mask22 (i : Nat) (hi : i < 32) : (0x3FFFFF : Word).getLsbD i = decide (i < 22) := by
  revert i; decide

theorem getLsbD_encodeRRR (op : BitVec 5) (rA rB rC : Reg) (i : Nat) (hi : i < 32) :
    (encodeRRR op rA rB rC).getLsbD i =
      if i < 5 then (BitVec.ofFin (w := 5) rC).getLsbD i else if i < 17 then false
      else if i < 22 then (BitVec.ofFin (w := 5) rB).getLsbD (i - 17)
      else if i < 27 then (BitVec.ofFin (w := 5) rA).getLsbD (i - 22) else op.getLsbD (i - 27) := by
  have hC := getLsbD_regShifted rC 0 i hi
  rw [BitVec.shiftLeft_zero, Nat.sub_zero] at hC
  rw [encodeRRR, BitVec.getLsbD_or, BitVec.getLsbD_or, getLsbD_encodeHead op rA i hi, getLsbD_regShifted rB 17 i hi, hC]
  by_cases h5 : i < 5
  · simp [h5, show i < 22 by omega, show ¬ 17 ≤ i by omega]
  · rw [BitVec.getLsbD_of_ge (BitVec.ofFin (w := 5) rC) i (by omega)]
    by_cases h17 : i < 17
    · simp [h5, h17, show i < 22 by omega]
    · by_cases h22 : i < 22
      · simp [h5, h17, h22, show 17 ≤ i by omega]
      · rw [BitVec.getLsbD_of_ge (BitVec.ofFin (w := 5) rB) (i - 17) (by omega)]
        simp [h5, h17, h22]

theorem getLsbD_encodeRRI (op : BitVec 5) (rA rB : Reg) (imm : Word) (i : Nat) (hi : i < 32) :
    (encodeRRI op rA rB imm).getLsbD i =
      if i < 17 then imm.getLsbD i else if i < 22 then (BitVec.ofFin (w := 5) rB).getLsbD (i - 17)
      else if i < 27 then (BitVec.ofFin (w := 5) rA).getLsbD (i - 22) else op.getLsbD (i - 27) := by
  rw [encodeRRI, BitVec.getLsbD_or, BitVec.getLsbD_or, getLsbD_encodeHead op rA i hi, getLsbD_regShifted rB 17 i hi,
    BitVec.getLsbD_and, getLsbD_mask17 i hi]
  by_cases h17 : i < 17
  · simp [h17, show i < 22 by omega]
  · by_cases h22 : i < 22
    · simp [h17, h22, show 17 ≤ i by omega]
    · rw [BitVec.getLsbD_of_ge (BitVec.ofFin (w := 5) rB) (i - 17) (by omega)]
      simp [h17, h22]

theorem getLsbD_encodeRI (op : BitVec 5) (rA : Reg) (imm : Word) (i : Nat) (hi : i < 32) :
    (encodeRI op rA imm).getLsbD i =
      if i < 22 then imm.getLsbD i
      else if i < 27 then (BitVec.ofFin (w := 5) rA).getLsbD (i - 22) else op.getLsbD (i - 27) := by
  rw [encodeRI, BitVec.getLsbD_or, getLsbD_encodeHead op rA i hi, BitVec.getLsbD_and, getLsbD_mask22 i hi]
  by_cases h22 : i < 22 <;> simp [h22]

/-! ## The fields of an encoded word -/

theorem opField_eq {w : Word} {op : BitVec 5} (h : ∀ i, i < 5 → w.getLsbD (27 + i) = op.getLsbD i) : opField w = op := by
  apply BitVec.eq_of_getLsbD_eq
  intro i hi
  rw [opField, BitVec.getLsbD_extractLsb', decide_eq_true hi, Bool.true_and, h i hi]

theorem regField_eq {w : Word} {lo : Nat} {r : Reg}
    (h : ∀ i, i < 5 → w.getLsbD (lo + i) = (BitVec.ofFin (w := 5) r).getLsbD i) : regField w lo = r := by
  have he : w.extractLsb' lo 5 = BitVec.ofFin (w := 5) r := by
    apply BitVec.eq_of_getLsbD_eq
    intro i hi
    rw [BitVec.getLsbD_extractLsb', decide_eq_true hi, Bool.true_and, h i hi]
  rw [regField, he]

theorem i17Field_eq {w imm : Word} (h : ∀ i, i < 17 → w.getLsbD i = imm.getLsbD i) : i17Field w = i17Field imm := by
  have he : w.extractLsb' 0 17 = imm.extractLsb' 0 17 := by
    apply BitVec.eq_of_getLsbD_eq
    intro i hi
    rw [BitVec.getLsbD_extractLsb', BitVec.getLsbD_extractLsb', Nat.zero_add, h i hi]
  rw [i17Field, he, i17Field]

theorem i22Field_eq {w imm : Word} (h : ∀ i, i < 22 → w.getLsbD i = imm.getLsbD i) : i22Field w = i22Field imm := by
  have he : w.extractLsb' 0 22 = imm.extractLsb' 0 22 := by
    apply BitVec.eq_of_getLsbD_eq
    intro i hi
    rw [BitVec.getLsbD_extractLsb', BitVec.getLsbD_extractLsb', Nat.zero_add, h i hi]
  rw [i22Field, he, i22Field]

/-- The fields of an RRR word. -/
theorem splitFields_encodeRRR (op : BitVec 5) (rA rB rC : Reg) :
    opField (encodeRRR op rA rB rC) = op ∧ regField (encodeRRR op rA rB rC) 22 = rA ∧
      regField (encodeRRR op rA rB rC) 17 = rB ∧ regField (encodeRRR op rA rB rC) 0 = rC := by
  refine ⟨opField_eq fun i hi => ?_, regField_eq fun i hi => ?_, regField_eq fun i hi => ?_, regField_eq fun i hi => ?_⟩ <;>
    rw [getLsbD_encodeRRR _ _ _ _ _ (by omega)] <;> split_ifs <;> first | omega | (congr 1; omega)

/-- The fields of an RRI word. -/
theorem splitFields_encodeRRI (op : BitVec 5) (rA rB : Reg) (imm : Word) :
    opField (encodeRRI op rA rB imm) = op ∧ regField (encodeRRI op rA rB imm) 22 = rA ∧
      regField (encodeRRI op rA rB imm) 17 = rB ∧ i17Field (encodeRRI op rA rB imm) = i17Field imm := by
  refine ⟨opField_eq fun i hi => ?_, regField_eq fun i hi => ?_, regField_eq fun i hi => ?_, i17Field_eq fun i hi => ?_⟩ <;>
    rw [getLsbD_encodeRRI _ _ _ _ _ (by omega)] <;> split_ifs <;> first | rfl | omega | (congr 1; omega)

/-- The fields of an RI word. -/
theorem splitFields_encodeRI (op : BitVec 5) (rA : Reg) (imm : Word) :
    opField (encodeRI op rA imm) = op ∧ regField (encodeRI op rA imm) 22 = rA ∧
      i22Field (encodeRI op rA imm) = i22Field imm := by
  refine ⟨opField_eq fun i hi => ?_, regField_eq fun i hi => ?_, i22Field_eq fun i hi => ?_⟩ <;>
    rw [getLsbD_encodeRI _ _ _ _ (by omega)] <;> split_ifs <;> first | rfl | omega | (congr 1; omega)

/-! ## Immediates in range -/

theorem i17Field_toInt (w : Word) : (i17Field w).toInt = (w.extractLsb' 0 17).toInt :=
  BitVec.toInt_signExtend_of_le (by omega)

/-- A 17-bit field, sign-extended, lies in the range of R306. -/
theorem i17InRange_i17Field (w : Word) : i17InRange (i17Field w) = true := by
  have h := i17Field_toInt w
  have h1 := BitVec.toInt_lt (x := w.extractLsb' 0 17)
  have h2 := BitVec.le_toInt (w.extractLsb' 0 17)
  have h3 := BitVec.toInt_eq_toNat_cond (i17Field w)
  have h4 := (i17Field w).isLt
  simp only [i17InRange, Bool.or_eq_true, decide_eq_true_eq]
  split at h3 <;> omega

/-- An immediate in the range of R306 is its own sign-extended field. -/
theorem i17Field_of_inRange {imm : Word} (h : i17InRange imm = true) : i17Field imm = imm := by
  apply BitVec.eq_of_toInt_eq
  simp only [i17InRange, Bool.or_eq_true, decide_eq_true_eq] at h
  have h1 := BitVec.toInt_eq_toNat_cond imm
  have h2 := BitVec.toInt_eq_toNat_cond (imm.extractLsb' 0 17)
  have h3 : (imm.extractLsb' 0 17).toNat = imm.toNat % 2 ^ 17 := by simp
  have h4 := imm.isLt
  rw [i17Field_toInt]
  split at h1 <;> split at h2 <;> omega

theorem toNat_i22Field (w : Word) : (i22Field w).toNat = w.toNat % 2 ^ 22 := by
  simp only [i22Field, BitVec.toNat_setWidth, BitVec.extractLsb'_toNat, Nat.shiftRight_zero]
  omega

/-- A 22-bit field, zero-extended, lies in the range of R307. -/
theorem i22InRange_i22Field (w : Word) : i22InRange (i22Field w) = true := by
  simp only [i22InRange, decide_eq_true_eq, toNat_i22Field]
  exact Nat.mod_lt _ (by decide)

/-- An immediate in the range of R307 is its own zero-extended field. -/
theorem i22Field_of_inRange {imm : Word} (h : i22InRange imm = true) : i22Field imm = imm := by
  apply BitVec.eq_of_toNat_eq
  simp only [i22InRange, decide_eq_true_eq] at h
  rw [toNat_i22Field, Nat.mod_eq_of_lt h]

/-! ## The decoder -/

/-- Everything the decoder can answer for an instruction: the fields its opcode uses (R308). -/
theorem decode_eq (w : Word) :
    decode w =
      match (opField w).toNat with
      | 0 => .ok (.jalr (regField w 22) (regField w 17) (i17Field w))
      | 1 => .ok (.add (regField w 22) (regField w 17) (regField w 0))
      | 2 => .ok (.addi (regField w 22) (regField w 17) (i17Field w))
      | 3 => .ok (.nand (regField w 22) (regField w 17) (regField w 0))
      | 4 => .ok (.lui (regField w 22) (i22Field w))
      | 5 => .ok (.sw (regField w 22) (regField w 17) (i17Field w))
      | 6 => .ok (.lw (regField w 22) (regField w 17) (i17Field w))
      | 7 => .ok (.beq (regField w 22) (regField w 17) (i17Field w))
      | 8 => .ok (.wsr (regField w 22) (i22Field w))
      | 9 => .ok (.rsr (regField w 22) (i22Field w))
      | 10 => .ok .iret
      | _ => .error (.reservedOpcode (opField w)) := by
  rfl

/-- One equation per opcode, for a word whose opcode field is that number (R308). -/
theorem decode_op0 {w : Word} (h : (opField w).toNat = 0) :
    decode w = .ok (.jalr (regField w 22) (regField w 17) (i17Field w)) := by rw [decode_eq, h]; rfl

theorem decode_op1 {w : Word} (h : (opField w).toNat = 1) :
    decode w = .ok (.add (regField w 22) (regField w 17) (regField w 0)) := by rw [decode_eq, h]; rfl

theorem decode_op2 {w : Word} (h : (opField w).toNat = 2) :
    decode w = .ok (.addi (regField w 22) (regField w 17) (i17Field w)) := by rw [decode_eq, h]; rfl

theorem decode_op3 {w : Word} (h : (opField w).toNat = 3) :
    decode w = .ok (.nand (regField w 22) (regField w 17) (regField w 0)) := by rw [decode_eq, h]; rfl

theorem decode_op4 {w : Word} (h : (opField w).toNat = 4) :
    decode w = .ok (.lui (regField w 22) (i22Field w)) := by rw [decode_eq, h]; rfl

theorem decode_op5 {w : Word} (h : (opField w).toNat = 5) :
    decode w = .ok (.sw (regField w 22) (regField w 17) (i17Field w)) := by rw [decode_eq, h]; rfl

theorem decode_op6 {w : Word} (h : (opField w).toNat = 6) :
    decode w = .ok (.lw (regField w 22) (regField w 17) (i17Field w)) := by rw [decode_eq, h]; rfl

theorem decode_op7 {w : Word} (h : (opField w).toNat = 7) :
    decode w = .ok (.beq (regField w 22) (regField w 17) (i17Field w)) := by rw [decode_eq, h]; rfl

theorem decode_op8 {w : Word} (h : (opField w).toNat = 8) :
    decode w = .ok (.wsr (regField w 22) (i22Field w)) := by rw [decode_eq, h]; rfl

theorem decode_op9 {w : Word} (h : (opField w).toNat = 9) :
    decode w = .ok (.rsr (regField w 22) (i22Field w)) := by rw [decode_eq, h]; rfl

theorem decode_op10 {w : Word} (h : (opField w).toNat = 10) : decode w = .ok .iret := by rw [decode_eq, h]; rfl

/-- The reserved opcodes are rejected by name (R310). -/
theorem decode_reserved {w : Word} (h : 11 ≤ (opField w).toNat) :
    decode w = .error (.reservedOpcode (opField w)) := by
  rw [decode_eq]
  split <;> first | omega | rfl

/-! ## Fields as numbers and as bits -/

theorem toNat_opField (w : Word) : (opField w).toNat = w.toNat / 2 ^ 27 := by
  have := w.isLt
  simp only [opField, BitVec.extractLsb'_toNat, Nat.shiftRight_eq_div_pow]
  omega

theorem val_regField (w : Word) (lo : Nat) : (regField w lo).val = w.toNat / 2 ^ lo % 32 := by
  simp [regField, Nat.shiftRight_eq_div_pow]

theorem getLsbD_regField (w : Word) (lo : Nat) {i : Nat} (hi : i < 5) :
    (BitVec.ofFin (w := 5) (regField w lo)).getLsbD i = w.getLsbD (lo + i) := by
  show (w.extractLsb' lo 5).getLsbD i = _
  rw [BitVec.getLsbD_extractLsb', decide_eq_true hi, Bool.true_and]

theorem getLsbD_opField (w : Word) {i : Nat} (hi : i < 5) : (opField w).getLsbD i = w.getLsbD (27 + i) := by
  rw [opField, BitVec.getLsbD_extractLsb', decide_eq_true hi, Bool.true_and]

theorem getLsbD_i17Field (w : Word) {i : Nat} (hi : i < 17) : (i17Field w).getLsbD i = w.getLsbD i := by
  rw [i17Field, BitVec.getLsbD_signExtend, if_pos hi, BitVec.getLsbD_extractLsb', decide_eq_true hi,
    decide_eq_true (by omega : i < 32), Bool.true_and, Bool.true_and, Nat.zero_add]

theorem getLsbD_i22Field (w : Word) {i : Nat} (hi : i < 22) : (i22Field w).getLsbD i = w.getLsbD i := by
  rw [i22Field, BitVec.getLsbD_setWidth, BitVec.getLsbD_extractLsb', decide_eq_true hi,
    decide_eq_true (by omega : i < 32), Bool.true_and, Bool.true_and, Nat.zero_add]

end Sys2Proof
end

