-- ==== Sys2Proof/Laws/Memory.lean ====
section
/-! SUPPORT. The laws of memory: a read after a write, the canonical form kept by every operation, and equal
reads of canonical memories mean equal lists. -/

namespace Sys2Proof.Machine

theorem Memory.wfFrom_cons {lo k : Nat} {v : Byte} {rest : Memory} :
    Memory.wfFrom lo ((k, v) :: rest) = true ↔
      lo ≤ k ∧ k < 4 * memWords ∧ v ≠ unlistedByte ∧ Memory.wfFrom (k + 1) rest = true := by
  simp [Memory.wfFrom, and_assoc]

theorem Memory.wfFrom_mono {lo lo' : Nat} {m : Memory} (h : lo ≤ lo') (hm : Memory.wfFrom lo' m = true) :
    Memory.wfFrom lo m = true := by
  cases m with
  | nil => rfl
  | cons c rest =>
    rw [Memory.wfFrom_cons] at hm ⊢
    exact ⟨h.trans hm.1, hm.2⟩

/-- Below the lowest listed address every byte reads as unlisted. -/
theorem Memory.readByte_below {m : Memory} {lo a : Nat} (hm : Memory.wfFrom lo m = true) (ha : a < lo) :
    m.readByte a = unlistedByte := by
  induction m generalizing lo with
  | nil => rfl
  | cons c rest ih =>
    rw [Memory.wfFrom_cons] at hm
    have hne : c.1 ≠ a := by omega
    simp only [Memory.readByte, if_neg hne]
    exact ih hm.2.2.2 (by omega)

theorem Memory.readByte_cons_self {m : Memory} {a : Nat} {b : Byte} (hm : m.readByte a = unlistedByte) :
    (Memory.cons a b m).readByte a = b := by
  unfold Memory.cons
  split
  · simpa [hm] using Eq.symm ‹_›
  · simp [Memory.readByte]

theorem Memory.readByte_cons_ne {m : Memory} {a x : Nat} {b : Byte} (h : x ≠ a) :
    (Memory.cons a b m).readByte x = m.readByte x := by
  unfold Memory.cons
  split
  · rfl
  · simp [Memory.readByte, Ne.symm h]

/-- A write leaves every other byte alone. -/
theorem Memory.readByte_writeByte_ne {m : Memory} {a x : Nat} {b : Byte} (h : x ≠ a) :
    (m.writeByte a b).readByte x = m.readByte x := by
  induction m with
  | nil => exact Memory.readByte_cons_ne h
  | cons c rest ih =>
    simp only [Memory.writeByte]
    split
    · exact Memory.readByte_cons_ne h
    · split
      · rename_i hak
        rw [Memory.readByte_cons_ne h]
        have hne : c.1 ≠ x := by omega
        simp [Memory.readByte, hne]
      · simp [Memory.readByte, ih]

theorem Memory.readByte_writeByte_self_from {m : Memory} {lo a : Nat} {b : Byte}
    (hm : Memory.wfFrom lo m = true) : (m.writeByte a b).readByte a = b := by
  induction m generalizing lo with
  | nil => exact Memory.readByte_cons_self rfl
  | cons c rest ih =>
    obtain ⟨k, v⟩ := c
    have hm' := Memory.wfFrom_cons.mp hm
    simp only [Memory.writeByte]
    split
    · apply Memory.readByte_cons_self
      exact Memory.readByte_below (Memory.wfFrom_cons.mpr ⟨Nat.le_refl k, hm'.2⟩) ‹a < k›
    · split
      · apply Memory.readByte_cons_self
        exact Memory.readByte_below hm'.2.2.2 (by omega)
      · have hne : k ≠ a := by omega
        simp only [Memory.readByte, if_neg hne]
        exact ih hm'.2.2.2

/-- A read after a write to the same byte gives the byte written. -/
theorem Memory.readByte_writeByte_self {m : Memory} {a : Nat} {b : Byte} (hm : m.wf = true) :
    (m.writeByte a b).readByte a = b :=
  Memory.readByte_writeByte_self_from hm

theorem Memory.wfFrom_consCell {lo a : Nat} {b : Byte} {m : Memory} (hlo : lo ≤ a) (ha : a < 4 * memWords)
    (hm : Memory.wfFrom (a + 1) m = true) : Memory.wfFrom lo (Memory.cons a b m) = true := by
  unfold Memory.cons
  split
  · exact Memory.wfFrom_mono (by omega) hm
  · exact Memory.wfFrom_cons.mpr ⟨hlo, ha, ‹_›, hm⟩

theorem Memory.wfFrom_writeByte {lo a : Nat} {b : Byte} {m : Memory} (hlo : lo ≤ a) (ha : a < 4 * memWords)
    (hm : Memory.wfFrom lo m = true) : Memory.wfFrom lo (m.writeByte a b) = true := by
  induction m generalizing lo with
  | nil => exact Memory.wfFrom_consCell hlo ha rfl
  | cons c rest ih =>
    obtain ⟨k, v⟩ := c
    have hm' := Memory.wfFrom_cons.mp hm
    simp only [Memory.writeByte]
    split
    · exact Memory.wfFrom_consCell hlo ha (Memory.wfFrom_cons.mpr ⟨by omega, hm'.2⟩)
    · split
      · rename_i hak
        subst hak
        exact Memory.wfFrom_consCell hlo ha hm'.2.2.2
      · exact Memory.wfFrom_cons.mpr ⟨hm'.1, hm'.2.1, hm'.2.2.1, ih (by omega) hm'.2.2.2⟩

/-- A byte write inside M keeps the canonical form. -/
theorem Memory.wf_writeByte {m : Memory} {a : Nat} {b : Byte} (ha : a < 4 * memWords) (hm : m.wf = true) :
    (m.writeByte a b).wf = true :=
  Memory.wfFrom_writeByte (Nat.zero_le a) ha hm

/-- A word write inside M keeps the canonical form. -/
theorem Memory.wf_writeWord {m : Memory} {p : Nat} {v : Word} (hp : p < memWords) (hm : m.wf = true) :
    (m.writeWord p v).wf = true := by
  unfold Memory.writeWord
  exact Memory.wf_writeByte (by omega) (Memory.wf_writeByte (by omega) (Memory.wf_writeByte (by omega)
    (Memory.wf_writeByte (by omega) hm)))

/-- A word write leaves every byte outside the word alone. -/
theorem Memory.readByte_writeWord_outside {m : Memory} {p a : Nat} {v : Word} (h : a < 4 * p ∨ 4 * p + 4 ≤ a) :
    (m.writeWord p v).readByte a = m.readByte a := by
  unfold Memory.writeWord
  rw [Memory.readByte_writeByte_ne (by omega), Memory.readByte_writeByte_ne (by omega),
    Memory.readByte_writeByte_ne (by omega), Memory.readByte_writeByte_ne (by omega)]

theorem getLsbD_wordOfBytes (b0 b1 b2 b3 : Byte) (i : Nat) :
    (wordOfBytes b0 b1 b2 b3).getLsbD i =
      if i < 8 then b0.getLsbD i else if i < 16 then b1.getLsbD (i - 8)
      else if i < 24 then b2.getLsbD (i - 16) else b3.getLsbD (i - 24) := by
  have h : (b3 ++ b2 ++ b1 ++ b0 : BitVec (8 + 8 + 8 + 8)).getLsbD i =
      if i < 8 then b0.getLsbD i else if i < 16 then b1.getLsbD (i - 8)
      else if i < 24 then b2.getLsbD (i - 16) else b3.getLsbD (i - 24) := by
    simp only [BitVec.getLsbD_append, Nat.sub_sub]
    split_ifs <;> first | rfl | omega
  exact h

theorem wordOfBytes_wordByte (v : Word) :
    wordOfBytes (wordByte v 0) (wordByte v 1) (wordByte v 2) (wordByte v 3) = v := by
  apply BitVec.eq_of_getLsbD_eq
  intro i hi
  rw [getLsbD_wordOfBytes]
  simp only [wordByte, BitVec.getLsbD_extractLsb']
  split_ifs with h0 h1 h2
  · rw [decide_eq_true h0, Bool.true_and, Nat.mul_zero, Nat.zero_add]
  · rw [decide_eq_true (by omega : i - 8 < 8), Bool.true_and, show 8 * 1 + (i - 8) = i by omega]
  · rw [decide_eq_true (by omega : i - 16 < 8), Bool.true_and, show 8 * 2 + (i - 16) = i by omega]
  · rw [decide_eq_true (by omega : i - 24 < 8), Bool.true_and, show 8 * 3 + (i - 24) = i by omega]

/-- A read after a write to the same word gives the word written. -/
theorem Memory.readWord_writeWord_self {m : Memory} {p : Nat} {v : Word} (hp : p < memWords) (hm : m.wf = true) :
    (m.writeWord p v).readWord p = v := by
  have h0 : (m.writeByte (4 * p) (wordByte v 0)).wf = true := Memory.wf_writeByte (by omega) hm
  have h1 := Memory.wf_writeByte (a := 4 * p + 1) (b := wordByte v 1) (by omega) h0
  have h2 := Memory.wf_writeByte (a := 4 * p + 2) (b := wordByte v 2) (by omega) h1
  unfold Memory.readWord Memory.writeWord
  rw [Memory.readByte_writeByte_self h2, Memory.readByte_writeByte_ne (a := 4 * p + 3) (x := 4 * p) (by omega),
    Memory.readByte_writeByte_ne (a := 4 * p + 2) (x := 4 * p) (by omega),
    Memory.readByte_writeByte_ne (a := 4 * p + 1) (x := 4 * p) (by omega), Memory.readByte_writeByte_self hm,
    Memory.readByte_writeByte_ne (a := 4 * p + 3) (x := 4 * p + 1) (by omega),
    Memory.readByte_writeByte_ne (a := 4 * p + 2) (x := 4 * p + 1) (by omega), Memory.readByte_writeByte_self h0,
    Memory.readByte_writeByte_ne (a := 4 * p + 3) (x := 4 * p + 2) (by omega), Memory.readByte_writeByte_self h1]
  exact wordOfBytes_wordByte v

/-- Words whose four bytes read the same are the same. -/
theorem Memory.readWord_congr {m m' : Memory} {p : Nat}
    (h : ∀ a, 4 * p ≤ a → a < 4 * p + 4 → m'.readByte a = m.readByte a) : m'.readWord p = m.readWord p := by
  unfold Memory.readWord
  rw [h _ (by omega) (by omega), h _ (by omega) (by omega), h _ (by omega) (by omega), h _ (by omega) (by omega)]

/-- A write leaves every other word alone. -/
theorem Memory.readWord_writeWord_ne {m : Memory} {p q : Nat} {v : Word} (h : q ≠ p) :
    (m.writeWord p v).readWord q = m.readWord q :=
  Memory.readWord_congr fun _ h1 h2 => Memory.readByte_writeWord_outside (by omega)

theorem Memory.wfFrom_ext {m m' : Memory} {lo : Nat} (hm : Memory.wfFrom lo m = true)
    (hm' : Memory.wfFrom lo m' = true) (h : ∀ a, m.readByte a = m'.readByte a) : m = m' := by
  induction m generalizing m' lo with
  | nil =>
    cases m' with
    | nil => rfl
    | cons c rest =>
      have := (Memory.wfFrom_cons.mp hm').2.2.1
      have h0 := h c.1
      simp [Memory.readByte] at h0
      exact absurd h0.symm this
  | cons c rest ih =>
    obtain ⟨k, v⟩ := c
    have w := Memory.wfFrom_cons.mp hm
    cases m' with
    | nil =>
      have h0 := h k
      simp [Memory.readByte] at h0
      exact absurd h0 w.2.2.1
    | cons c' rest' =>
      obtain ⟨k', v'⟩ := c'
      have w' := Memory.wfFrom_cons.mp hm'
      have hk : k = k' := by
        rcases Nat.lt_trichotomy k k' with hlt | heq | hgt
        · have h0 := h k
          rw [Memory.readByte_below (Memory.wfFrom_cons.mpr ⟨Nat.le_refl k', w'.2⟩) hlt] at h0
          simp only [Memory.readByte, if_true] at h0
          exact absurd h0 w.2.2.1
        · exact heq
        · have h0 := h k'
          rw [Memory.readByte_below (Memory.wfFrom_cons.mpr ⟨Nat.le_refl k, w.2⟩) hgt] at h0
          simp only [Memory.readByte, if_true] at h0
          exact absurd h0.symm w'.2.2.1
      subst hk
      have hv : v = v' := by simpa [Memory.readByte] using h k
      subst hv
      rw [ih w.2.2.2 w'.2.2.2]
      intro a
      by_cases ha : k = a
      · rw [Memory.readByte_below w.2.2.2 (by omega), Memory.readByte_below w'.2.2.2 (by omega)]
      · simpa [Memory.readByte, ha] using h a

/-- Canonical memories that read the same everywhere are the same list. -/
theorem Memory.ext_of_readByte {m m' : Memory} (hm : m.wf = true) (hm' : m'.wf = true)
    (h : ∀ a, m.readByte a = m'.readByte a) : m = m' :=
  Memory.wfFrom_ext hm hm' h

/-- Placing words inside M keeps the canonical form. -/
theorem Memory.wf_place {ws : List Word} {m : Memory} {p : Nat} (hp : p + ws.length ≤ memWords) (hm : m.wf = true) :
    (m.place p ws).wf = true := by
  induction ws generalizing m p with
  | nil => exact hm
  | cons w ws ih =>
    rw [List.length_cons] at hp
    exact ih (by omega) (Memory.wf_writeWord (by omega) hm)

/-- Memory that lists nothing reads as zero (R120). -/
@[simp] theorem Memory.readWord_nil (p : Nat) : Memory.readWord [] p = 0 := by
  show wordOfBytes 0 0 0 0 = 0
  decide

/-- Below the first word placed, memory reads as before. -/
theorem Memory.readWord_place_below {ws : List Word} {m : Memory} {p q : Nat} (hq : q < p) :
    (m.place p ws).readWord q = m.readWord q := by
  induction ws generalizing m p with
  | nil => rfl
  | cons w ws ih =>
    rw [Memory.place, ih (by omega), Memory.readWord_writeWord_ne (by omega)]

/-- What word `p + k` reads as after words are placed from `p` on: the `k`-th of them, and past them what it read as
before. -/
theorem Memory.readWord_place {ws : List Word} {m : Memory} {p : Nat} (hp : p + ws.length ≤ memWords)
    (hm : m.wf = true) (k : Nat) : (m.place p ws).readWord (p + k) = (ws[k]?).getD (m.readWord (p + k)) := by
  induction ws generalizing m p k with
  | nil => rfl
  | cons w ws ih =>
    rw [List.length_cons] at hp
    cases k with
    | zero =>
      rw [Memory.place, Memory.readWord_place_below (by omega)]
      exact Memory.readWord_writeWord_self (by omega) hm
    | succ k =>
      rw [Memory.place, show p + (k + 1) = p + 1 + k by omega, ih (by omega) (Memory.wf_writeWord (by omega) hm),
        Memory.readWord_writeWord_ne (by omega), List.getElem?_cons_succ]

theorem physRead_ok {m : Memory} {p : Word} {c : SegfaultCause} (h : p.toNat < memWords) :
    physRead m p c = .ok (m.readWord p.toNat) := if_pos h

theorem physRead_error {m : Memory} {p : Word} {c : SegfaultCause} (h : memWords ≤ p.toNat) :
    physRead m p c = .error (.segfault c) := if_neg (by omega)

/-- Everything a direct physical read can answer (R225). -/
theorem physRead_cases {m : Memory} {p : Word} {c : SegfaultCause} {r : Except Raise Word} (h : physRead m p c = r) :
    (p.toNat < memWords ∧ r = .ok (m.readWord p.toNat)) ∨ (memWords ≤ p.toNat ∧ r = .error (.segfault c)) := by
  unfold physRead at h
  split at h
  · exact .inl ⟨‹_›, h.symm⟩
  · exact .inr ⟨by omega, h.symm⟩

end Sys2Proof.Machine
end

