-- ==== Sys2Proof/Laws/State.lean ====
section
/-! SUPPORT. The small lemmas of State: one per field per update, and what the accessors read after each update. -/

namespace Sys2Proof.Machine

/-! ## `setX` -/

@[simp] theorem State.setX_pc (s : State) (i : Reg) (v : Word) : (s.setX i v).pc = s.pc := rfl
@[simp] theorem State.setX_sr (s : State) (i : Reg) (v : Word) : (s.setX i v).sr = s.sr := rfl
@[simp] theorem State.setX_ipc (s : State) (i : Reg) (v : Word) : (s.setX i v).ipc = s.ipc := rfl
@[simp] theorem State.setX_is0 (s : State) (i : Reg) (v : Word) : (s.setX i v).is0 = s.is0 := rfl
@[simp] theorem State.setX_isp (s : State) (i : Reg) (v : Word) : (s.setX i v).isp = s.isp := rfl
@[simp] theorem State.setX_cf (s : State) (i : Reg) (v : Word) : (s.setX i v).cf = s.cf := rfl
@[simp] theorem State.setX_ltr (s : State) (i : Reg) (v : Word) : (s.setX i v).ltr = s.ltr := rfl
@[simp] theorem State.setX_ttyAttached (s : State) (i : Reg) (v : Word) : (s.setX i v).ttyAttached = s.ttyAttached := rfl
@[simp] theorem State.setX_tty (s : State) (i : Reg) (v : Word) : (s.setX i v).tty = s.tty := rfl
@[simp] theorem State.setX_mem (s : State) (i : Reg) (v : Word) : (s.setX i v).mem = s.mem := rfl
@[simp] theorem State.setX_status (s : State) (i : Reg) (v : Word) : (s.setX i v).status = s.status := rfl
@[simp] theorem State.setX_hostNow (s : State) (i : Reg) (v : Word) : (s.setX i v).hostNow = s.hostNow := rfl
@[simp] theorem State.setX_nowSteps (s : State) (i : Reg) (v : Word) : (s.setX i v).nowSteps = s.nowSteps := rfl
@[simp] theorem State.setX_nowDraws (s : State) (i : Reg) (v : Word) : (s.setX i v).nowDraws = s.nowDraws := rfl
@[simp] theorem State.setX_ttyReplies (s : State) (i : Reg) (v : Word) : (s.setX i v).ttyReplies = s.ttyReplies := rfl
@[simp] theorem State.setX_ttyProbes (s : State) (i : Reg) (v : Word) : (s.setX i v).ttyProbes = s.ttyProbes := rfl
@[simp] theorem State.setX_s0 (s : State) (i : Reg) (v : Word) : (s.setX i v).s0 = s.s0 := rfl
@[simp] theorem State.setX_s1 (s : State) (i : Reg) (v : Word) : (s.setX i v).s1 = s.s1 := rfl
@[simp] theorem State.setX_s2 (s : State) (i : Reg) (v : Word) : (s.setX i v).s2 = s.s2 := rfl
@[simp] theorem State.setX_s3 (s : State) (i : Reg) (v : Word) : (s.setX i v).s3 = s.s3 := rfl
@[simp] theorem State.setX_userMode (s : State) (i : Reg) (v : Word) : (s.setX i v).userMode = s.userMode := rfl
@[simp] theorem State.setX_paging (s : State) (i : Reg) (v : Word) : (s.setX i v).paging = s.paging := rfl
@[simp] theorem State.setX_interrupts (s : State) (i : Reg) (v : Word) : (s.setX i v).interrupts = s.interrupts := rfl
@[simp] theorem State.setX_getS (s : State) (i : Reg) (v : Word) (j : Fin 4) : (s.setX i v).getS j = s.getS j := rfl

/-! ## `setS` -/

@[simp] theorem State.setS_x (s : State) (k : Fin 4) (v : Word) : (s.setS k v).x = s.x := rfl
@[simp] theorem State.setS_pc (s : State) (k : Fin 4) (v : Word) : (s.setS k v).pc = s.pc := rfl
@[simp] theorem State.setS_ipc (s : State) (k : Fin 4) (v : Word) : (s.setS k v).ipc = s.ipc := rfl
@[simp] theorem State.setS_is0 (s : State) (k : Fin 4) (v : Word) : (s.setS k v).is0 = s.is0 := rfl
@[simp] theorem State.setS_isp (s : State) (k : Fin 4) (v : Word) : (s.setS k v).isp = s.isp := rfl
@[simp] theorem State.setS_cf (s : State) (k : Fin 4) (v : Word) : (s.setS k v).cf = s.cf := rfl
@[simp] theorem State.setS_ltr (s : State) (k : Fin 4) (v : Word) : (s.setS k v).ltr = s.ltr := rfl
@[simp] theorem State.setS_ttyAttached (s : State) (k : Fin 4) (v : Word) : (s.setS k v).ttyAttached = s.ttyAttached := rfl
@[simp] theorem State.setS_tty (s : State) (k : Fin 4) (v : Word) : (s.setS k v).tty = s.tty := rfl
@[simp] theorem State.setS_mem (s : State) (k : Fin 4) (v : Word) : (s.setS k v).mem = s.mem := rfl
@[simp] theorem State.setS_status (s : State) (k : Fin 4) (v : Word) : (s.setS k v).status = s.status := rfl
@[simp] theorem State.setS_hostNow (s : State) (k : Fin 4) (v : Word) : (s.setS k v).hostNow = s.hostNow := rfl
@[simp] theorem State.setS_nowSteps (s : State) (k : Fin 4) (v : Word) : (s.setS k v).nowSteps = s.nowSteps := rfl
@[simp] theorem State.setS_nowDraws (s : State) (k : Fin 4) (v : Word) : (s.setS k v).nowDraws = s.nowDraws := rfl
@[simp] theorem State.setS_ttyReplies (s : State) (k : Fin 4) (v : Word) : (s.setS k v).ttyReplies = s.ttyReplies := rfl
@[simp] theorem State.setS_ttyProbes (s : State) (k : Fin 4) (v : Word) : (s.setS k v).ttyProbes = s.ttyProbes := rfl
@[simp] theorem State.setS_getX (s : State) (k : Fin 4) (v : Word) (r : Reg) : (s.setS k v).getX r = s.getX r := rfl

/-! ## `advancePc` -/

@[simp] theorem State.advancePc_x (s : State) : (s.advancePc).x = s.x := rfl
@[simp] theorem State.advancePc_pc (s : State) : (s.advancePc).pc = s.pc + 1 := rfl
@[simp] theorem State.advancePc_sr (s : State) : (s.advancePc).sr = s.sr := rfl
@[simp] theorem State.advancePc_ipc (s : State) : (s.advancePc).ipc = s.ipc := rfl
@[simp] theorem State.advancePc_is0 (s : State) : (s.advancePc).is0 = s.is0 := rfl
@[simp] theorem State.advancePc_isp (s : State) : (s.advancePc).isp = s.isp := rfl
@[simp] theorem State.advancePc_cf (s : State) : (s.advancePc).cf = s.cf := rfl
@[simp] theorem State.advancePc_ltr (s : State) : (s.advancePc).ltr = s.ltr := rfl
@[simp] theorem State.advancePc_ttyAttached (s : State) : (s.advancePc).ttyAttached = s.ttyAttached := rfl
@[simp] theorem State.advancePc_tty (s : State) : (s.advancePc).tty = s.tty := rfl
@[simp] theorem State.advancePc_mem (s : State) : (s.advancePc).mem = s.mem := rfl
@[simp] theorem State.advancePc_status (s : State) : (s.advancePc).status = s.status := rfl
@[simp] theorem State.advancePc_hostNow (s : State) : (s.advancePc).hostNow = s.hostNow := rfl
@[simp] theorem State.advancePc_nowSteps (s : State) : (s.advancePc).nowSteps = s.nowSteps := rfl
@[simp] theorem State.advancePc_nowDraws (s : State) : (s.advancePc).nowDraws = s.nowDraws := rfl
@[simp] theorem State.advancePc_ttyReplies (s : State) : (s.advancePc).ttyReplies = s.ttyReplies := rfl
@[simp] theorem State.advancePc_ttyProbes (s : State) : (s.advancePc).ttyProbes = s.ttyProbes := rfl
@[simp] theorem State.advancePc_s0 (s : State) : (s.advancePc).s0 = s.s0 := rfl
@[simp] theorem State.advancePc_s1 (s : State) : (s.advancePc).s1 = s.s1 := rfl
@[simp] theorem State.advancePc_s2 (s : State) : (s.advancePc).s2 = s.s2 := rfl
@[simp] theorem State.advancePc_s3 (s : State) : (s.advancePc).s3 = s.s3 := rfl
@[simp] theorem State.advancePc_userMode (s : State) : (s.advancePc).userMode = s.userMode := rfl
@[simp] theorem State.advancePc_paging (s : State) : (s.advancePc).paging = s.paging := rfl
@[simp] theorem State.advancePc_interrupts (s : State) : (s.advancePc).interrupts = s.interrupts := rfl
@[simp] theorem State.advancePc_getS (s : State) (j : Fin 4) : (s.advancePc).getS j = s.getS j := rfl
@[simp] theorem State.advancePc_getX (s : State) (r : Reg) : (s.advancePc).getX r = s.getX r := rfl

/-! ## `forceX0` -/

@[simp] theorem State.forceX0_pc (s : State) : (s.forceX0).pc = s.pc := rfl
@[simp] theorem State.forceX0_sr (s : State) : (s.forceX0).sr = s.sr := rfl
@[simp] theorem State.forceX0_ipc (s : State) : (s.forceX0).ipc = s.ipc := rfl
@[simp] theorem State.forceX0_is0 (s : State) : (s.forceX0).is0 = s.is0 := rfl
@[simp] theorem State.forceX0_isp (s : State) : (s.forceX0).isp = s.isp := rfl
@[simp] theorem State.forceX0_cf (s : State) : (s.forceX0).cf = s.cf := rfl
@[simp] theorem State.forceX0_ltr (s : State) : (s.forceX0).ltr = s.ltr := rfl
@[simp] theorem State.forceX0_ttyAttached (s : State) : (s.forceX0).ttyAttached = s.ttyAttached := rfl
@[simp] theorem State.forceX0_tty (s : State) : (s.forceX0).tty = s.tty := rfl
@[simp] theorem State.forceX0_mem (s : State) : (s.forceX0).mem = s.mem := rfl
@[simp] theorem State.forceX0_status (s : State) : (s.forceX0).status = s.status := rfl
@[simp] theorem State.forceX0_hostNow (s : State) : (s.forceX0).hostNow = s.hostNow := rfl
@[simp] theorem State.forceX0_nowSteps (s : State) : (s.forceX0).nowSteps = s.nowSteps := rfl
@[simp] theorem State.forceX0_nowDraws (s : State) : (s.forceX0).nowDraws = s.nowDraws := rfl
@[simp] theorem State.forceX0_ttyReplies (s : State) : (s.forceX0).ttyReplies = s.ttyReplies := rfl
@[simp] theorem State.forceX0_ttyProbes (s : State) : (s.forceX0).ttyProbes = s.ttyProbes := rfl
@[simp] theorem State.forceX0_s0 (s : State) : (s.forceX0).s0 = s.s0 := rfl
@[simp] theorem State.forceX0_s1 (s : State) : (s.forceX0).s1 = s.s1 := rfl
@[simp] theorem State.forceX0_s2 (s : State) : (s.forceX0).s2 = s.s2 := rfl
@[simp] theorem State.forceX0_s3 (s : State) : (s.forceX0).s3 = s.s3 := rfl
@[simp] theorem State.forceX0_userMode (s : State) : (s.forceX0).userMode = s.userMode := rfl
@[simp] theorem State.forceX0_paging (s : State) : (s.forceX0).paging = s.paging := rfl
@[simp] theorem State.forceX0_interrupts (s : State) : (s.forceX0).interrupts = s.interrupts := rfl
@[simp] theorem State.forceX0_getS (s : State) (j : Fin 4) : (s.forceX0).getS j = s.getS j := rfl

/-! ## `enterKernel` -/

@[simp] theorem State.enterKernel_pc (s : State) : (s.enterKernel).pc = s.pc := rfl
@[simp] theorem State.enterKernel_ipc (s : State) : (s.enterKernel).ipc = s.pc := rfl
@[simp] theorem State.enterKernel_is0 (s : State) : (s.enterKernel).is0 = s.s0 := rfl
@[simp] theorem State.enterKernel_isp (s : State) : (s.enterKernel).isp = s.getX stackReg := rfl
@[simp] theorem State.enterKernel_cf (s : State) : (s.enterKernel).cf = s.cf := rfl
@[simp] theorem State.enterKernel_ltr (s : State) : (s.enterKernel).ltr = s.ltr := rfl
@[simp] theorem State.enterKernel_ttyAttached (s : State) : (s.enterKernel).ttyAttached = s.ttyAttached := rfl
@[simp] theorem State.enterKernel_tty (s : State) : (s.enterKernel).tty = s.tty := rfl
@[simp] theorem State.enterKernel_mem (s : State) : (s.enterKernel).mem = s.mem := rfl
@[simp] theorem State.enterKernel_status (s : State) : (s.enterKernel).status = s.status := rfl
@[simp] theorem State.enterKernel_hostNow (s : State) : (s.enterKernel).hostNow = s.hostNow := rfl
@[simp] theorem State.enterKernel_nowSteps (s : State) : (s.enterKernel).nowSteps = s.nowSteps := rfl
@[simp] theorem State.enterKernel_nowDraws (s : State) : (s.enterKernel).nowDraws = s.nowDraws := rfl
@[simp] theorem State.enterKernel_ttyReplies (s : State) : (s.enterKernel).ttyReplies = s.ttyReplies := rfl
@[simp] theorem State.enterKernel_ttyProbes (s : State) : (s.enterKernel).ttyProbes = s.ttyProbes := rfl

/-! ## `drawNow` -/

@[simp] theorem State.drawNow_x (s : State) : (s.drawNow).x = s.x := rfl
@[simp] theorem State.drawNow_pc (s : State) : (s.drawNow).pc = s.pc := rfl
@[simp] theorem State.drawNow_sr (s : State) : (s.drawNow).sr = s.sr := rfl
@[simp] theorem State.drawNow_ipc (s : State) : (s.drawNow).ipc = s.ipc := rfl
@[simp] theorem State.drawNow_is0 (s : State) : (s.drawNow).is0 = s.is0 := rfl
@[simp] theorem State.drawNow_isp (s : State) : (s.drawNow).isp = s.isp := rfl
@[simp] theorem State.drawNow_cf (s : State) : (s.drawNow).cf = s.cf := rfl
@[simp] theorem State.drawNow_ltr (s : State) : (s.drawNow).ltr = s.ltr := rfl
@[simp] theorem State.drawNow_ttyAttached (s : State) : (s.drawNow).ttyAttached = s.ttyAttached := rfl
@[simp] theorem State.drawNow_tty (s : State) : (s.drawNow).tty = s.tty := rfl
@[simp] theorem State.drawNow_mem (s : State) : (s.drawNow).mem = s.mem := rfl
@[simp] theorem State.drawNow_status (s : State) : (s.drawNow).status = s.status := rfl
@[simp] theorem State.drawNow_hostNow (s : State) : (s.drawNow).hostNow = s.now := rfl
@[simp] theorem State.drawNow_nowSteps (s : State) : (s.drawNow).nowSteps = s.nowSteps.tail := rfl
@[simp] theorem State.drawNow_nowDraws (s : State) : (s.drawNow).nowDraws = s.nowDraws + 1 := rfl
@[simp] theorem State.drawNow_ttyReplies (s : State) : (s.drawNow).ttyReplies = s.ttyReplies := rfl
@[simp] theorem State.drawNow_ttyProbes (s : State) : (s.drawNow).ttyProbes = s.ttyProbes := rfl
@[simp] theorem State.drawNow_s0 (s : State) : (s.drawNow).s0 = s.s0 := rfl
@[simp] theorem State.drawNow_s1 (s : State) : (s.drawNow).s1 = s.s1 := rfl
@[simp] theorem State.drawNow_s2 (s : State) : (s.drawNow).s2 = s.s2 := rfl
@[simp] theorem State.drawNow_s3 (s : State) : (s.drawNow).s3 = s.s3 := rfl
@[simp] theorem State.drawNow_userMode (s : State) : (s.drawNow).userMode = s.userMode := rfl
@[simp] theorem State.drawNow_paging (s : State) : (s.drawNow).paging = s.paging := rfl
@[simp] theorem State.drawNow_interrupts (s : State) : (s.drawNow).interrupts = s.interrupts := rfl
@[simp] theorem State.drawNow_getS (s : State) (j : Fin 4) : (s.drawNow).getS j = s.getS j := rfl
@[simp] theorem State.drawNow_getX (s : State) (r : Reg) : (s.drawNow).getX r = s.getX r := rfl

/-! ## `clockChecked` -/

@[simp] theorem State.clockChecked_x (s : State) : (s.clockChecked).x = s.x := rfl
@[simp] theorem State.clockChecked_pc (s : State) : (s.clockChecked).pc = s.pc := rfl
@[simp] theorem State.clockChecked_sr (s : State) : (s.clockChecked).sr = s.sr := rfl
@[simp] theorem State.clockChecked_ipc (s : State) : (s.clockChecked).ipc = s.ipc := rfl
@[simp] theorem State.clockChecked_is0 (s : State) : (s.clockChecked).is0 = s.is0 := rfl
@[simp] theorem State.clockChecked_isp (s : State) : (s.clockChecked).isp = s.isp := rfl
@[simp] theorem State.clockChecked_cf (s : State) : (s.clockChecked).cf = s.cf := rfl
@[simp] theorem State.clockChecked_ltr (s : State) : (s.clockChecked).ltr = some (s.ltr.getD s.now) := rfl
@[simp] theorem State.clockChecked_ttyAttached (s : State) : (s.clockChecked).ttyAttached = s.ttyAttached := rfl
@[simp] theorem State.clockChecked_tty (s : State) : (s.clockChecked).tty = s.tty := rfl
@[simp] theorem State.clockChecked_mem (s : State) : (s.clockChecked).mem = s.mem := rfl
@[simp] theorem State.clockChecked_status (s : State) : (s.clockChecked).status = s.status := rfl
@[simp] theorem State.clockChecked_hostNow (s : State) : (s.clockChecked).hostNow = s.now := rfl
@[simp] theorem State.clockChecked_nowSteps (s : State) : (s.clockChecked).nowSteps = s.nowSteps.tail := rfl
@[simp] theorem State.clockChecked_nowDraws (s : State) : (s.clockChecked).nowDraws = s.nowDraws + 1 := rfl
@[simp] theorem State.clockChecked_ttyReplies (s : State) : (s.clockChecked).ttyReplies = s.ttyReplies := rfl
@[simp] theorem State.clockChecked_ttyProbes (s : State) : (s.clockChecked).ttyProbes = s.ttyProbes := rfl
@[simp] theorem State.clockChecked_s0 (s : State) : (s.clockChecked).s0 = s.s0 := rfl
@[simp] theorem State.clockChecked_s1 (s : State) : (s.clockChecked).s1 = s.s1 := rfl
@[simp] theorem State.clockChecked_s2 (s : State) : (s.clockChecked).s2 = s.s2 := rfl
@[simp] theorem State.clockChecked_s3 (s : State) : (s.clockChecked).s3 = s.s3 := rfl
@[simp] theorem State.clockChecked_userMode (s : State) : (s.clockChecked).userMode = s.userMode := rfl
@[simp] theorem State.clockChecked_paging (s : State) : (s.clockChecked).paging = s.paging := rfl
@[simp] theorem State.clockChecked_interrupts (s : State) : (s.clockChecked).interrupts = s.interrupts := rfl
@[simp] theorem State.clockChecked_getS (s : State) (j : Fin 4) : (s.clockChecked).getS j = s.getS j := rfl
@[simp] theorem State.clockChecked_getX (s : State) (r : Reg) : (s.clockChecked).getX r = s.getX r := rfl

/-! ## `clockFired` -/

@[simp] theorem State.clockFired_x (s : State) : (s.clockFired).x = s.x := rfl
@[simp] theorem State.clockFired_pc (s : State) : (s.clockFired).pc = s.pc := rfl
@[simp] theorem State.clockFired_sr (s : State) : (s.clockFired).sr = s.sr := rfl
@[simp] theorem State.clockFired_ipc (s : State) : (s.clockFired).ipc = s.ipc := rfl
@[simp] theorem State.clockFired_is0 (s : State) : (s.clockFired).is0 = s.is0 := rfl
@[simp] theorem State.clockFired_isp (s : State) : (s.clockFired).isp = s.isp := rfl
@[simp] theorem State.clockFired_cf (s : State) : (s.clockFired).cf = s.cf := rfl
@[simp] theorem State.clockFired_ltr (s : State) : (s.clockFired).ltr = some s.now := rfl
@[simp] theorem State.clockFired_ttyAttached (s : State) : (s.clockFired).ttyAttached = s.ttyAttached := rfl
@[simp] theorem State.clockFired_tty (s : State) : (s.clockFired).tty = s.tty := rfl
@[simp] theorem State.clockFired_mem (s : State) : (s.clockFired).mem = s.mem := rfl
@[simp] theorem State.clockFired_status (s : State) : (s.clockFired).status = s.status := rfl
@[simp] theorem State.clockFired_hostNow (s : State) : (s.clockFired).hostNow = s.now := rfl
@[simp] theorem State.clockFired_nowSteps (s : State) : (s.clockFired).nowSteps = s.nowSteps.tail := rfl
@[simp] theorem State.clockFired_nowDraws (s : State) : (s.clockFired).nowDraws = s.nowDraws + 1 := rfl
@[simp] theorem State.clockFired_ttyReplies (s : State) : (s.clockFired).ttyReplies = s.ttyReplies := rfl
@[simp] theorem State.clockFired_ttyProbes (s : State) : (s.clockFired).ttyProbes = s.ttyProbes := rfl
@[simp] theorem State.clockFired_s0 (s : State) : (s.clockFired).s0 = s.s0 := rfl
@[simp] theorem State.clockFired_s1 (s : State) : (s.clockFired).s1 = s.s1 := rfl
@[simp] theorem State.clockFired_s2 (s : State) : (s.clockFired).s2 = s.s2 := rfl
@[simp] theorem State.clockFired_s3 (s : State) : (s.clockFired).s3 = s.s3 := rfl
@[simp] theorem State.clockFired_userMode (s : State) : (s.clockFired).userMode = s.userMode := rfl
@[simp] theorem State.clockFired_paging (s : State) : (s.clockFired).paging = s.paging := rfl
@[simp] theorem State.clockFired_interrupts (s : State) : (s.clockFired).interrupts = s.interrupts := rfl
@[simp] theorem State.clockFired_getS (s : State) (j : Fin 4) : (s.clockFired).getS j = s.getS j := rfl
@[simp] theorem State.clockFired_getX (s : State) (r : Reg) : (s.clockFired).getX r = s.getX r := rfl

/-! ## `afterProbe` -/

@[simp] theorem State.afterProbe_x (s : State) : (s.afterProbe).x = s.x := rfl
@[simp] theorem State.afterProbe_pc (s : State) : (s.afterProbe).pc = s.pc := rfl
@[simp] theorem State.afterProbe_sr (s : State) : (s.afterProbe).sr = s.sr := rfl
@[simp] theorem State.afterProbe_ipc (s : State) : (s.afterProbe).ipc = s.ipc := rfl
@[simp] theorem State.afterProbe_is0 (s : State) : (s.afterProbe).is0 = s.is0 := rfl
@[simp] theorem State.afterProbe_isp (s : State) : (s.afterProbe).isp = s.isp := rfl
@[simp] theorem State.afterProbe_cf (s : State) : (s.afterProbe).cf = s.cf := rfl
@[simp] theorem State.afterProbe_ltr (s : State) : (s.afterProbe).ltr = s.ltr := rfl
@[simp] theorem State.afterProbe_ttyAttached (s : State) : (s.afterProbe).ttyAttached = s.ttyAttached := rfl
@[simp] theorem State.afterProbe_tty (s : State) : (s.afterProbe).tty = probedRegs s.tty s.nextTtyReply.regs := rfl
@[simp] theorem State.afterProbe_mem (s : State) : (s.afterProbe).mem = s.mem := rfl
@[simp] theorem State.afterProbe_status (s : State) : (s.afterProbe).status = s.status := rfl
@[simp] theorem State.afterProbe_hostNow (s : State) : (s.afterProbe).hostNow = s.hostNow := rfl
@[simp] theorem State.afterProbe_nowSteps (s : State) : (s.afterProbe).nowSteps = s.nowSteps := rfl
@[simp] theorem State.afterProbe_nowDraws (s : State) : (s.afterProbe).nowDraws = s.nowDraws := rfl
@[simp] theorem State.afterProbe_ttyReplies (s : State) : (s.afterProbe).ttyReplies = s.ttyReplies.tail := rfl
@[simp] theorem State.afterProbe_ttyProbes (s : State) : (s.afterProbe).ttyProbes = s.ttyProbes + 1 := rfl
@[simp] theorem State.afterProbe_s0 (s : State) : (s.afterProbe).s0 = s.s0 := rfl
@[simp] theorem State.afterProbe_s1 (s : State) : (s.afterProbe).s1 = s.s1 := rfl
@[simp] theorem State.afterProbe_s2 (s : State) : (s.afterProbe).s2 = s.s2 := rfl
@[simp] theorem State.afterProbe_s3 (s : State) : (s.afterProbe).s3 = s.s3 := rfl
@[simp] theorem State.afterProbe_userMode (s : State) : (s.afterProbe).userMode = s.userMode := rfl
@[simp] theorem State.afterProbe_paging (s : State) : (s.afterProbe).paging = s.paging := rfl
@[simp] theorem State.afterProbe_interrupts (s : State) : (s.afterProbe).interrupts = s.interrupts := rfl
@[simp] theorem State.afterProbe_getS (s : State) (j : Fin 4) : (s.afterProbe).getS j = s.getS j := rfl
@[simp] theorem State.afterProbe_getX (s : State) (r : Reg) : (s.afterProbe).getX r = s.getX r := rfl

/-! ## `CellRef.write` -/

@[simp] theorem CellRef.write_x (s : State) (v : Word) (c : CellRef) : (c.write s v).x = s.x := by cases c <;> rfl
@[simp] theorem CellRef.write_pc (s : State) (v : Word) (c : CellRef) : (c.write s v).pc = s.pc := by cases c <;> rfl
@[simp] theorem CellRef.write_sr (s : State) (v : Word) (c : CellRef) : (c.write s v).sr = s.sr := by cases c <;> rfl
@[simp] theorem CellRef.write_ipc (s : State) (v : Word) (c : CellRef) : (c.write s v).ipc = s.ipc := by cases c <;> rfl
@[simp] theorem CellRef.write_is0 (s : State) (v : Word) (c : CellRef) : (c.write s v).is0 = s.is0 := by cases c <;> rfl
@[simp] theorem CellRef.write_isp (s : State) (v : Word) (c : CellRef) : (c.write s v).isp = s.isp := by cases c <;> rfl
@[simp] theorem CellRef.write_ltr (s : State) (v : Word) (c : CellRef) : (c.write s v).ltr = s.ltr := by cases c <;> rfl
@[simp] theorem CellRef.write_ttyAttached (s : State) (v : Word) (c : CellRef) : (c.write s v).ttyAttached = s.ttyAttached := by cases c <;> rfl
@[simp] theorem CellRef.write_status (s : State) (v : Word) (c : CellRef) : (c.write s v).status = s.status := by cases c <;> rfl
@[simp] theorem CellRef.write_hostNow (s : State) (v : Word) (c : CellRef) : (c.write s v).hostNow = s.hostNow := by cases c <;> rfl
@[simp] theorem CellRef.write_nowSteps (s : State) (v : Word) (c : CellRef) : (c.write s v).nowSteps = s.nowSteps := by cases c <;> rfl
@[simp] theorem CellRef.write_nowDraws (s : State) (v : Word) (c : CellRef) : (c.write s v).nowDraws = s.nowDraws := by cases c <;> rfl
@[simp] theorem CellRef.write_ttyReplies (s : State) (v : Word) (c : CellRef) : (c.write s v).ttyReplies = s.ttyReplies := by cases c <;> rfl
@[simp] theorem CellRef.write_ttyProbes (s : State) (v : Word) (c : CellRef) : (c.write s v).ttyProbes = s.ttyProbes := by cases c <;> rfl
@[simp] theorem CellRef.write_s0 (s : State) (v : Word) (c : CellRef) : (c.write s v).s0 = s.s0 := by cases c <;> rfl
@[simp] theorem CellRef.write_s1 (s : State) (v : Word) (c : CellRef) : (c.write s v).s1 = s.s1 := by cases c <;> rfl
@[simp] theorem CellRef.write_s2 (s : State) (v : Word) (c : CellRef) : (c.write s v).s2 = s.s2 := by cases c <;> rfl
@[simp] theorem CellRef.write_s3 (s : State) (v : Word) (c : CellRef) : (c.write s v).s3 = s.s3 := by cases c <;> rfl
@[simp] theorem CellRef.write_userMode (s : State) (v : Word) (c : CellRef) : (c.write s v).userMode = s.userMode := by cases c <;> rfl
@[simp] theorem CellRef.write_paging (s : State) (v : Word) (c : CellRef) : (c.write s v).paging = s.paging := by cases c <;> rfl
@[simp] theorem CellRef.write_interrupts (s : State) (v : Word) (c : CellRef) : (c.write s v).interrupts = s.interrupts := by cases c <;> rfl
@[simp] theorem CellRef.write_getS (s : State) (v : Word) (c : CellRef) (j : Fin 4) : (c.write s v).getS j = s.getS j := by cases c <;> rfl
@[simp] theorem CellRef.write_getX (s : State) (v : Word) (c : CellRef) (r : Reg) : (c.write s v).getX r = s.getX r := by cases c <;> rfl

/-! ## Register reads after register writes -/

@[simp] theorem State.getX_setX_self (s : State) (i : Reg) (v : Word) : (s.setX i v).getX i = v := by
  simp [State.getX, State.setX]

@[simp] theorem State.getX_setX_ne {s : State} {i j : Reg} {v : Word} (h : j ≠ i) : (s.setX i v).getX j = s.getX j := by
  have hne : i.val ≠ j.val := fun e => h (Fin.ext e.symm)
  simp [State.getX, State.setX, hne]

@[simp] theorem State.getS_setS_self (s : State) (k : Fin 4) (v : Word) : (s.setS k v).getS k = v := by
  simp [State.getS, State.setS]

@[simp] theorem State.getS_setS_ne {s : State} {k j : Fin 4} {v : Word} (h : j ≠ k) : (s.setS k v).getS j = s.getS j := by
  have hne : k.val ≠ j.val := fun e => h (Fin.ext e.symm)
  simp [State.getS, State.setS, hne]

/-- Registers read through `setX`, in one equation. -/
theorem State.getX_setX (s : State) (i j : Reg) (v : Word) : (s.setX i v).getX j = if j = i then v else s.getX j := by
  split
  · subst_vars; simp
  · simp [*]

@[simp] theorem State.setX_stack_zero {s : State} {v : Word} : (s.setX stackReg v).getX 0 = s.getX 0 :=
  State.getX_setX_ne (by decide)

theorem State.s0_eq (s : State) : s.s0 = s.getS 0 := rfl
theorem State.s1_eq (s : State) : s.s1 = s.getS 1 := rfl
theorem State.s2_eq (s : State) : s.s2 = s.getS 2 := rfl
theorem State.s3_eq (s : State) : s.s3 = s.getS 3 := rfl

/-- Two status register files that read the same are the same. -/
theorem State.sr_ext {s t : State} (h : ∀ k : Fin 4, t.getS k = s.getS k) : t.sr = s.sr := by
  apply Vector.ext
  intro i hi
  exact h ⟨i, hi⟩

@[simp] theorem State.forceX0_zero (s : State) : s.forceX0.getX 0 = 0 := State.getX_setX_self s 0 0

@[simp] theorem State.forceX0_ne {s : State} {r : Reg} (h : r ≠ 0) : s.forceX0.getX r = s.getX r := State.getX_setX_ne h

/-! ## Entering and leaving the kernel -/

@[simp] theorem State.enterKernel_stack (s : State) : s.enterKernel.getX stackReg = s.s3 :=
  State.getX_setX_self _ stackReg _

@[simp] theorem State.enterKernel_getX {s : State} {r : Reg} (h : r ≠ stackReg) : s.enterKernel.getX r = s.getX r :=
  State.getX_setX_ne h

@[simp] theorem State.enterKernel_s0 (s : State) : s.enterKernel.s0 = clearModeBits s.s0 :=
  State.getS_setS_self _ 0 _

@[simp] theorem State.enterKernel_s1 (s : State) : s.enterKernel.s1 = s.s1 :=
  State.getS_setS_ne (k := 0) (j := 1) (by decide)

@[simp] theorem State.enterKernel_s2 (s : State) : s.enterKernel.s2 = s.s2 :=
  State.getS_setS_ne (k := 0) (j := 2) (by decide)

@[simp] theorem State.enterKernel_s3 (s : State) : s.enterKernel.s3 = s.s3 :=
  State.getS_setS_ne (k := 0) (j := 3) (by decide)

@[simp] theorem returnFromInterrupt_pc (s : State) : (returnFromInterrupt s).pc = s.ipc := rfl

@[simp] theorem returnFromInterrupt_s0 (s : State) : (returnFromInterrupt s).s0 = s.is0 :=
  State.getS_setS_self s 0 _

@[simp] theorem returnFromInterrupt_stack (s : State) : (returnFromInterrupt s).getX stackReg = s.isp :=
  State.getX_setX_self _ stackReg _

@[simp] theorem returnFromInterrupt_getX {s : State} {r : Reg} (h : r ≠ stackReg) :
    (returnFromInterrupt s).getX r = s.getX r :=
  State.getX_setX_ne h

@[simp] theorem returnFromInterrupt_getS {s : State} {k : Fin 4} (h : k ≠ 0) : (returnFromInterrupt s).getS k = s.getS k :=
  State.getS_setS_ne h

@[simp] theorem returnFromInterrupt_mem (s : State) : (returnFromInterrupt s).mem = s.mem := rfl
@[simp] theorem returnFromInterrupt_ipc (s : State) : (returnFromInterrupt s).ipc = s.ipc := rfl
@[simp] theorem returnFromInterrupt_is0 (s : State) : (returnFromInterrupt s).is0 = s.is0 := rfl
@[simp] theorem returnFromInterrupt_isp (s : State) : (returnFromInterrupt s).isp = s.isp := rfl
@[simp] theorem returnFromInterrupt_status (s : State) : (returnFromInterrupt s).status = s.status := rfl
@[simp] theorem returnFromInterrupt_cf (s : State) : (returnFromInterrupt s).cf = s.cf := rfl
@[simp] theorem returnFromInterrupt_ltr (s : State) : (returnFromInterrupt s).ltr = s.ltr := rfl
@[simp] theorem returnFromInterrupt_ttyAttached (s : State) : (returnFromInterrupt s).ttyAttached = s.ttyAttached := rfl
@[simp] theorem returnFromInterrupt_tty (s : State) : (returnFromInterrupt s).tty = s.tty := rfl
@[simp] theorem returnFromInterrupt_hostNow (s : State) : (returnFromInterrupt s).hostNow = s.hostNow := rfl

/-! ## JALR's link and jump -/

@[simp] theorem linkAndJump_getX (rA rB : Reg) (s : State) (r : Reg) :
    (linkAndJump rA rB s).getX r = if r = rA then s.pc else s.getX r :=
  State.getX_setX s rA r s.pc

@[simp] theorem linkAndJump_pc (rA rB : Reg) (s : State) :
    (linkAndJump rA rB s).pc = if rB = rA then s.pc else s.getX rB :=
  State.getX_setX s rA rB s.pc

@[simp] theorem linkAndJump_mem (rA rB : Reg) (s : State) : (linkAndJump rA rB s).mem = s.mem := rfl
@[simp] theorem linkAndJump_sr (rA rB : Reg) (s : State) : (linkAndJump rA rB s).sr = s.sr := rfl
@[simp] theorem linkAndJump_status (rA rB : Reg) (s : State) : (linkAndJump rA rB s).status = s.status := rfl
@[simp] theorem linkAndJump_ltr (rA rB : Reg) (s : State) : (linkAndJump rA rB s).ltr = s.ltr := rfl
@[simp] theorem linkAndJump_hostNow (rA rB : Reg) (s : State) : (linkAndJump rA rB s).hostNow = s.hostNow := rfl

end Sys2Proof.Machine
end

