-- ==== Sys2Proof/Laws/Ops.lean ====
section
/-! SUPPORT. One lemma per shared operation, saying everything it can do: the access path, reads and writes through a
cell, interrupt entry, the poll and the boundary. -/

namespace Sys2Proof.Machine

/-! ## Masks as arithmetic -/

theorem toNat_and_low10 (v : Word) : (v &&& 0x3FF).toNat = v.toNat % 1024 := by
  rw [BitVec.toNat_and]
  exact Nat.and_two_pow_sub_one_eq_mod v.toNat 10

theorem isPageAligned_iff (v : Word) : isPageAligned v = true ↔ v.toNat % 1024 = 0 := by
  rw [isPageAligned, beq_iff_eq, ← BitVec.toNat_inj, toNat_and_low10]
  rfl

theorem toNat_pageNumber (addr : Word) : (pageNumber addr).toNat = addr.toNat / 1024 := by
  rw [pageNumber, BitVec.toNat_ushiftRight, Nat.shiftRight_eq_div_pow]

/-- The index of the page-table entry, as the number the claims use. -/
theorem toNat_pteIndex (s : State) (addr : Word) : (s.s1 + pageNumber addr).toNat = pteIndex s addr := by
  rw [BitVec.toNat_add, toNat_pageNumber]
  rfl

theorem toNat_translatedAddress (pte addr : Word) : (translatedAddress pte addr).toNat = pagedAddress pte addr := by
  have hhi : pte &&& (0xFFFFFC00 : Word) = (pte >>> 10) <<< 10 := by
    apply BitVec.eq_of_getLsbD_eq
    intro i hi
    have hm : (0xFFFFFC00 : Word).getLsbD i = decide (10 ≤ i) := by
      revert i; decide
    rw [BitVec.getLsbD_and, hm, BitVec.getLsbD_shiftLeft, BitVec.getLsbD_ushiftRight]
    by_cases h : 10 ≤ i
    · rw [decide_eq_true h, decide_eq_true hi, decide_eq_false (by omega : ¬ i < 10), show 10 + (i - 10) = i by omega]
      simp
    · rw [decide_eq_false h, decide_eq_true (by omega : i < 10)]
      simp
  have hlt : (addr &&& 0x3FF).toNat < 2 ^ 10 := by rw [toNat_and_low10]; omega
  rw [translatedAddress, hhi, BitVec.toNat_or, BitVec.toNat_shiftLeft, BitVec.toNat_ushiftRight,
    Nat.shiftRight_eq_div_pow, Nat.shiftLeft_eq, Nat.mod_eq_of_lt (by have := pte.isLt; omega),
    Nat.mul_comm, ← Nat.two_pow_add_eq_or_of_lt hlt, toNat_and_low10, pagedAddress]
  omega

theorem clearModeBits_getLsbD (v : Word) (k : Nat) : (clearModeBits v).getLsbD k = (v.getLsbD k && decide (3 ≤ k)) := by
  by_cases hk : k < 32
  · have hm : (~~~(0x7 : Word)).getLsbD k = decide (3 ≤ k) := by
      revert k; decide
    rw [clearModeBits, BitVec.getLsbD_and, hm]
  · simp [BitVec.getLsbD_of_ge, Nat.le_of_not_lt hk]

theorem toNat_clampCode (code : Word) : (clampCode code).toNat = vectorCode code := by
  unfold clampCode vectorCode
  split <;> rfl

/-! ## The access path -/

theorem mmioCell_eq_none_iff (attached : Bool) (addr : Word) :
    mmioCell attached addr = none ↔ ¬ IsMmio attached addr := by
  unfold mmioCell IsMmio
  cases attached <;> split_ifs <;> simp_all

/-- An MMIO access resolves to a device register, whatever is requested (R205). -/
theorem access_of_mmio {s : State} {addr : Word} {req : PageFlags} {c : CellRef}
    (h : mmioCell s.ttyAttached addr = some c) : access s addr req = .ok c := by
  simp [access, h]

/-- With paging off an address outside MMIO is a physical address (R207, R213). -/
theorem access_unpaged {s : State} {addr : Word} {req : PageFlags} (hm : ¬ IsMmio s.ttyAttached addr)
    (hp : s.paging = false) :
    access s addr req =
      if addr.toNat < memWords then .ok (.ram addr.toNat) else .error (.segfault .physicalOutOfRange) := by
  simp [access, (mmioCell_eq_none_iff _ _).mpr hm, translate, hp]

/-- The whole of a paged access outside MMIO, its checks in the order of R204 (R208 to R213). -/
theorem access_paged {s : State} {addr : Word} {req : PageFlags} (hm : ¬ IsMmio s.ttyAttached addr)
    (hp : s.paging = true) :
    access s addr req =
      if s.s1.toNat % 1024 = 0 then
        if pteIndex s addr < memWords then
          if req.subset (pteFlags (pteOf s addr)) then
            if pagedAddress (pteOf s addr) addr < memWords then .ok (.ram (pagedAddress (pteOf s addr) addr))
            else .error (.segfault .physicalOutOfRange)
          else .error (.notPermitted .pageFlag)
        else .error (.segfault .pageTableIndexOutOfRange)
      else .error (.segfault .pageTableBaseMisaligned) := by
  have hn := (mmioCell_eq_none_iff _ _).mpr hm
  by_cases ha : s.s1.toNat % 1024 = 0
  · by_cases hi : pteIndex s addr < memWords
    · by_cases hf : req.subset (pteFlags (pteOf s addr)) = true
      · have hf' := hf
        unfold pteOf at hf'
        simp only [access, hn, translate, hp, isPageAligned_iff, physRead, toNat_pteIndex, ha, hi, hf', hf, if_true,
          toNat_translatedAddress]
        rfl
      · have hf' := hf
        unfold pteOf at hf'
        simp only [access, hn, translate, hp, isPageAligned_iff, physRead, toNat_pteIndex, ha, hi, hf', hf, if_true]
        rfl
    · simp only [access, hn, translate, hp, isPageAligned_iff, physRead, toNat_pteIndex, ha, hi, if_true, if_false]
  · simp [access, hn, translate, hp, isPageAligned_iff, ha]

/-- Everything an access that succeeds can resolve to (R204): a present device register, or a word inside M that
translation allows. -/
theorem access_cases {s : State} {addr : Word} {req : PageFlags} {c : CellRef} (h : access s addr req = .ok c) :
    (IsMmio s.ttyAttached addr ∧ mmioCell s.ttyAttached addr = some c) ∨
    (¬ IsMmio s.ttyAttached addr ∧ ∃ p, c = .ram p ∧ p < memWords ∧
      ((s.paging = false ∧ p = addr.toNat) ∨
       (s.paging = true ∧ s.s1.toNat % 1024 = 0 ∧ pteIndex s addr < memWords ∧
        req.subset (pteFlags (pteOf s addr)) = true ∧ p = pagedAddress (pteOf s addr) addr))) := by
  by_cases hm : IsMmio s.ttyAttached addr
  · left
    refine ⟨hm, ?_⟩
    cases hc : mmioCell s.ttyAttached addr with
    | none => exact absurd hm ((mmioCell_eq_none_iff _ _).mp hc)
    | some d =>
      rw [access_of_mmio hc] at h
      injection h with h
      rw [h]
  · right
    refine ⟨hm, ?_⟩
    cases hp : s.paging with
    | false =>
      rw [access_unpaged hm hp] at h
      split at h
      · injection h with h
        exact ⟨_, h.symm, ‹_›, .inl ⟨rfl, rfl⟩⟩
      · cases h
    | true =>
      rw [access_paged hm hp] at h
      split at h
      · split at h
        · split at h
          · split at h
            · injection h with h
              exact ⟨_, h.symm, ‹_›, .inr ⟨rfl, ‹_›, ‹_›, ‹_›, rfl⟩⟩
            · cases h
          · cases h
        · cases h
      · cases h

/-- A device register is never a word of M. -/
theorem mmioCell_ne_ram {attached : Bool} {addr : Word} {p : Nat} : mmioCell attached addr ≠ some (.ram p) := by
  unfold mmioCell
  split_ifs <;> simp

/-- A word of M that an access resolves to lies inside M. -/
theorem access_ram_lt {s : State} {addr : Word} {req : PageFlags} {p : Nat} (h : access s addr req = .ok (.ram p)) :
    p < memWords := by
  rcases access_cases h with ⟨_, hc⟩ | ⟨_, q, hq, hlt, _⟩
  · exact absurd hc mmioCell_ne_ram
  · injection hq with hq
    omega

/-- The path depends only on the mode, the page-table base, the TTY's presence and memory. -/
theorem access_congr {s t : State} (addr : Word) (req : PageFlags) (hp : t.paging = s.paging) (h1 : t.s1 = s.s1)
    (ha : t.ttyAttached = s.ttyAttached) (hm : t.mem = s.mem) : access t addr req = access s addr req := by
  simp only [access, translate, hp, h1, ha, hm]

/-! ## Reads and writes through a cell -/

/-- A read after a write through the same cell gives the value written. -/
theorem CellRef.read_write_self {s : State} {v : Word} {c : CellRef} (hm : s.mem.wf = true)
    (hc : ∀ p, c = .ram p → p < memWords) : c.read (c.write s v) = v := by
  cases c with
  | ram p => exact Memory.readWord_writeWord_self (hc p rfl) hm
  | _ => rfl

/-- A write through a cell an access resolved to keeps the canonical form of memory. -/
theorem CellRef.wf_write {s : State} {v : Word} {c : CellRef} (hm : s.mem.wf = true)
    (hc : ∀ p, c = .ram p → p < memWords) : (c.write s v).mem.wf = true := by
  cases c with
  | ram p => exact Memory.wf_writeWord (hc p rfl) hm
  | _ => exact hm

theorem fetch_ok {s : State} {c : CellRef} (h : access s s.pc .fetch = .ok c) : fetch s = .ok (c.read s) := by
  simp [fetch, h]

theorem fetch_error {s : State} {r : Raise} (h : access s s.pc .fetch = .error r) : fetch s = .error r := by
  simp [fetch, h]

theorem memRead_ok {s : State} {addr : Word} {c : CellRef} (h : access s addr .load = .ok c) :
    memRead s addr = .ok (c.read s) := by simp [memRead, h]

theorem memRead_error {s : State} {addr : Word} {r : Raise} (h : access s addr .load = .error r) :
    memRead s addr = .error r := by simp [memRead, h]

theorem memWrite_ok {s : State} {addr v : Word} {c : CellRef} (h : access s addr .store = .ok c) :
    memWrite s addr v = .ok (c.write s v) := by simp [memWrite, h]

theorem memWrite_error {s : State} {addr v : Word} {r : Raise} (h : access s addr .store = .error r) :
    memWrite s addr v = .error r := by simp [memWrite, h]

/-- Everything a store that succeeds does (R14, R460). -/
theorem memWrite_cases {s t : State} {addr v : Word} (h : memWrite s addr v = .ok t) :
    ∃ c, access s addr .store = .ok c ∧ t = c.write s v := by
  unfold memWrite at h
  split at h
  · cases h
  · injection h with h
    exact ⟨_, ‹_›, h.symm⟩

/-! ## Reset (R700) -/

theorem bootState_getX (image : List Word) (attached : Bool) (nowSteps : List Nat) (replies : List TtyReply) (r : Reg) :
    (bootState image attached nowSteps replies).getX r = 0 := by
  simp [bootState, State.reset, State.getX]

theorem bootState_getS (image : List Word) (attached : Bool) (nowSteps : List Nat) (replies : List TtyReply)
    (k : Fin 4) : (bootState image attached nowSteps replies).getS k = 0 := by
  simp [bootState, State.reset, State.getS]

/-- Paging is off after reset. -/
theorem bootState_paging (image : List Word) (attached : Bool) (nowSteps : List Nat) (replies : List TtyReply) :
    (bootState image attached nowSteps replies).paging = false := by
  rw [State.paging, State.s0_eq, bootState_getS]
  rfl

/-! ## Interrupt entry -/

theorem vectorIndex_toNat {code : Word} {s : State} (h : s.s2.toNat % 1024 = 0) :
    (s.s2 + clampCode code).toNat = s.s2.toNat + vectorCode code := by
  have hc : vectorCode code < 16 := by unfold vectorCode; split <;> omega
  have := s.s2.isLt
  rw [BitVec.toNat_add, toNat_clampCode]
  omega

/-- The whole of interrupt entry, its checks in the order of R605. -/
theorem interrupt_eq (code : Word) (s : State) :
    interrupt code s =
      if s.s2.toNat % 1024 = 0 then
        if s.s3.toNat % 1024 = 0 then
          if s.s2.toNat + vectorCode code < memWords then
            .ok { s.enterKernel with pc := s.mem.readWord (s.s2.toNat + vectorCode code) }
          else .error (.segfault .vectorOutOfRange)
        else .error (.segfault .interruptStackMisaligned)
      else .error (.segfault .vectorBaseMisaligned) := by
  unfold interrupt
  simp only [isPageAligned_iff, physRead]
  split
  · rw [vectorIndex_toNat ‹_›]
    split
    · by_cases hv : s.s2.toNat + vectorCode code < memWords <;> simp [hv]
    · rfl
  · rfl

/-- Entry with ready bases and vector gives the state `Entered` describes. -/
theorem interrupt_ready {code : Word} {s : State} (h : EntryReady code s) :
    interrupt code s = .ok { s.enterKernel with pc := s.mem.readWord (s.s2.toNat + vectorCode code) } := by
  rw [interrupt_eq, if_pos h.vectorBase, if_pos h.stackBase, if_pos h.vectorInRange]

/-- Everything an interrupt entry that succeeds can do (R605). -/
theorem interrupt_cases {code : Word} {s t : State} (h : interrupt code s = .ok t) :
    EntryReady code s ∧ t = { s.enterKernel with pc := s.mem.readWord (s.s2.toNat + vectorCode code) } := by
  rw [interrupt_eq] at h
  split_ifs at h with h1 h2 h3
  injection h with h
  exact ⟨⟨h1, h2, h3⟩, h.symm⟩

/-- The state after entry is the one `Entered` describes. -/
theorem entered_enterKernel (code : Word) (s : State) :
    Entered code s { s.enterKernel with pc := s.mem.readWord (s.s2.toNat + vectorCode code) } where
  is0 := rfl
  isp := rfl
  ipc := rfl
  stack := s.enterKernel_stack
  kernel := by
    show s.enterKernel.s0.getLsbD 0 = false
    rw [State.enterKernel_s0, clearModeBits_getLsbD]; simp
  unpaged := by
    show s.enterKernel.s0.getLsbD 1 = false
    rw [State.enterKernel_s0, clearModeBits_getLsbD]; simp
  masked := by
    show s.enterKernel.s0.getLsbD 2 = false
    rw [State.enterKernel_s0, clearModeBits_getLsbD]; simp
  otherFlags := fun k hk => by
    show s.enterKernel.s0.getLsbD k = _
    rw [State.enterKernel_s0, clearModeBits_getLsbD]; simp [hk]
  bases := ⟨s.enterKernel_s1, s.enterKernel_s2, s.enterKernel_s3⟩
  pc := rfl
  regs := fun r hr => State.enterKernel_getX (by simpa using hr)
  memory := rfl
  devices := ⟨rfl, rfl, rfl, rfl⟩
  host := ⟨rfl, rfl, rfl, rfl, rfl⟩
  status := rfl

theorem interrupt_entered {code : Word} {s t : State} (h : interrupt code s = .ok t) : Entered code s t := by
  obtain ⟨_, rfl⟩ := interrupt_cases h
  exact entered_enterKernel code s

/-! ## The poll and the boundary -/

/-- Every bit of the status register after a probe (R626). -/
theorem getLsbD_probedRegs_status (old new : TtyRegs) {k : Nat} (hk : k < 32) :
    (probedRegs old new).status.getLsbD k =
      if k = 0 then old.status.getLsbD 0 || new.status.getLsbD 0
      else if k = 1 then old.status.getLsbD 1 && new.status.getLsbD 1
      else old.status.getLsbD k := by
  have masks : (0xFFFFFFFC : Word).getLsbD k = decide (2 ≤ k) ∧ (1 : Word).getLsbD k = decide (k = 0) ∧
      (2 : Word).getLsbD k = decide (k = 1) := by
    revert k; decide
  obtain ⟨h1, h2, h3⟩ := masks
  simp only [probedRegs, BitVec.getLsbD_or, BitVec.getLsbD_and, h1, h2, h3]
  obtain rfl | rfl | h : k = 0 ∨ k = 1 ∨ 2 ≤ k := by omega
  · simp
  · simp
  · simp [h, show k ≠ 0 by omega, show k ≠ 1 by omega]

/-- The time drawn is never before the last one (D17). -/
theorem State.hostNow_le_now (s : State) : s.hostNow ≤ s.now := Nat.le_add_right _ _

/-- Everything a poll that goes on can do (R611): nothing, an unfired clock check, a clock interrupt, and without one
a TTY probe that may deliver the TTY interrupt. -/
theorem pollTty_cases {s t : State} (h : pollTty s = .ok t) :
    (s.ttyAttached = false ∧ t = s) ∨
    (s.ttyAttached = true ∧ s.nextTtyReply.answer = .notPending ∧ t = s.afterProbe) ∨
    (s.ttyAttached = true ∧ s.nextTtyReply.answer = .pending ∧ interrupt irqTty s.afterProbe = .ok t) := by
  unfold pollTty at h
  split at h
  · split at h
    · cases h
    · exact .inr (.inr ⟨‹_›, ‹_›, h⟩)
    · injection h with h
      exact .inr (.inl ⟨‹_›, ‹_›, h.symm⟩)
  · injection h with h
    exact .inl ⟨by simpa using ‹¬ s.ttyAttached = true›, h.symm⟩

theorem poll_cases {s t : State} (h : poll s = .ok t) :
    (s.interrupts = false ∧ t = s) ∨
    (s.interrupts = true ∧ s.cf = 0 ∧ pollTty s = .ok t) ∨
    (s.interrupts = true ∧ s.cf ≠ 0 ∧ s.clockDue = false ∧ pollTty s.clockChecked = .ok t) ∨
    (s.interrupts = true ∧ s.cf ≠ 0 ∧ s.clockDue = true ∧ interrupt irqClock s.clockFired = .ok t) := by
  unfold poll at h
  split at h
  · split at h
    · split at h
      · exact .inr (.inr (.inr ⟨‹_›, ‹_›, ‹_›, h⟩))
      · exact .inr (.inr (.inl ⟨‹_›, ‹_›, by simpa using ‹¬ s.clockDue = true›, h⟩))
    · exact .inr (.inl ⟨‹_›, not_not.mp ‹_›, h⟩)
  · injection h with h
    exact .inl ⟨by simpa using ‹¬ s.interrupts = true›, h.symm⟩

theorem poll_masked {s : State} (h : s.interrupts = false) : poll s = .ok s := by simp [poll, h]

/-- A boundary whose poll goes on goes on where the poll does. -/
theorem boundary_poll_ok {a w : Word} {t u : State} (ht : t.status = .running) (hp : poll t.forceX0 = .ok u) :
    boundary a w (.next t) = .next u := by simp only [boundary, ht, hp]

/-- A boundary whose poll raises faults with the instruction's record (R602). -/
theorem boundary_poll_error {a w : Word} {t : State} {r : Raise} (ht : t.status = .running)
    (hp : poll t.forceX0 = .error r) : boundary a w (.next t) = .fault (r.toFault a (some w)) := by
  simp only [boundary, ht, hp]

/-- No poll after a halt (R406). -/
theorem boundary_halted {a w : Word} {t : State} (ht : t.status = .halted) : boundary a w (.next t) = .next t := by
  simp only [boundary, ht]

/-- Everything a boundary that gives a next state can do (R404 to R406). -/
theorem boundary_cases {a w : Word} {o : Host.Outcome State Fault Refusal} {u : State}
    (h : boundary a w o = .next u) :
    ∃ t, o = .next t ∧
      ((t.status = .halted ∧ u = t) ∨ (t.status = .running ∧ poll t.forceX0 = .ok u)) := by
  cases o with
  | next t =>
    refine ⟨t, rfl, ?_⟩
    simp only [boundary] at h
    split at h
    · injection h with h
      exact .inl ⟨‹_›, h.symm⟩
    · split at h
      · injection h with h
        subst h
        exact .inr ⟨‹_›, ‹_›⟩
      · cases h
  | fault f => simp [boundary] at h
  | refused r => simp [boundary] at h

/-- Everything a step that gives a next state can do (R400). -/
theorem step_cases {s u : State} (h : step s = .next u) :
    s.status = .running ∧ ∃ w i t, fetch s = .ok w ∧ decode w = .ok i ∧ exec i s.advancePc = .next t ∧
      ((t.status = .halted ∧ u = t) ∨ (t.status = .running ∧ poll t.forceX0 = .ok u)) := by
  unfold step at h
  split at h
  · cases h
  · split at h
    · cases h
    · split at h
      · cases h
      · obtain ⟨t, ht, hu⟩ := boundary_cases h
        exact ⟨‹_›, _, _, t, ‹_›, ‹_›, ht, hu⟩

/-! ## Execute -/

/-- The frame of a write to one general register. -/
theorem onlyRegister_setX (s : State) (r : Reg) (v : Word) : OnlyRegister r s (s.setX r v) where
  regs := fun _ hj => State.getX_setX_ne (by simpa using hj)
  pc := rfl
  memory := fun _ => rfl
  system := ⟨rfl, ⟨rfl, rfl, rfl⟩, ⟨rfl, rfl, rfl, rfl⟩, ⟨rfl, rfl, rfl, rfl, rfl⟩, rfl⟩

theorem outcomeIn_next {s t : State} {r : Except Raise State} (h : outcomeIn s r = .next t) : r = .ok t := by
  cases r with
  | ok u => simpa [outcomeIn] using h
  | error e => simp [outcomeIn, raiseIn] at h

theorem statusAccess_cases {i22 : Word} {s : State} {k : Fin 4} (h : statusAccess i22 s = .ok k) :
    s.userMode = false ∧ i22.toNat = k.val := by
  unfold statusAccess at h
  split at h
  · cases h
  · split at h
    · injection h with h
      subst h
      rename_i hk
      unfold statusIndex at hk
      split at hk
      · injection hk with hk
        exact ⟨by simpa using ‹¬ s.userMode = true›, by rw [← hk]⟩
      · cases hk
    · cases h

theorem statusAccess_ok {s : State} {k : Fin 4} {i22 : Word} (hu : s.userMode = false) (hk : i22.toNat = k.val) :
    statusAccess i22 s = .ok k := by
  have hlt : i22.toNat < 4 := by omega
  simp [statusAccess, hu, statusIndex, hk]

/-- Everything an instruction that gives a next state can do (R403), one case per effect. -/
theorem exec_cases {i : Instr} {s t : State} (h : exec i s = .next t) :
    (∃ rA v, i ≠ .iret ∧ t = s.setX rA v) ∨
    (∃ rA rB i17, i = .jalr rA rB i17 ∧ (rA ≠ 0 ∨ rB ≠ 0) ∧ t = linkAndJump rA rB s) ∨
    (∃ i17, i = .jalr 0 0 i17 ∧ s.interrupts = false ∧ t = { s with status := .halted }) ∨
    (∃ i17, i = .jalr 0 0 i17 ∧ s.interrupts = true ∧ interrupt i17 s = .ok t) ∨
    (∃ rA rB i17 c, i = .sw rA rB i17 ∧ access s (effectiveAddress s rB i17) .store = .ok c ∧
      t = c.write s (s.getX rA)) ∨
    (∃ rA rB i17 v, i = .beq rA rB i17 ∧ t = { s with pc := v }) ∨
    (∃ rA i22 k, i = .wsr rA i22 ∧ s.userMode = false ∧ i22.toNat = k.val ∧ t = s.setS k (s.getX rA)) ∨
    (i = .iret ∧ s.userMode = false ∧ t = returnFromInterrupt s) := by
  cases i with
  | jalr rA rB i17 =>
    simp only [exec, execJalr] at h
    split at h
    · injection h with h
      exact .inr (.inl ⟨rA, rB, i17, rfl, ‹_›, h.symm⟩)
    · rename_i hz
      push Not at hz
      obtain ⟨rfl, rfl⟩ := hz
      split at h
      · exact .inr (.inr (.inr (.inl ⟨i17, rfl, ‹_›, outcomeIn_next h⟩)))
      · injection h with h
        exact .inr (.inr (.inl ⟨i17, rfl, by simpa using ‹¬ s.interrupts = true›, h.symm⟩))
  | add rA rB rC => injection h with h; exact .inl ⟨rA, _, by simp, h.symm⟩
  | addi rA rB i17 => injection h with h; exact .inl ⟨rA, _, by simp, h.symm⟩
  | nand rA rB rC => injection h with h; exact .inl ⟨rA, _, by simp, h.symm⟩
  | lui rA i22 => injection h with h; exact .inl ⟨rA, _, by simp, h.symm⟩
  | sw rA rB i17 =>
    obtain ⟨c, hc, rfl⟩ := memWrite_cases (outcomeIn_next h)
    exact .inr (.inr (.inr (.inr (.inl ⟨rA, rB, i17, c, rfl, hc, rfl⟩))))
  | lw rA rB i17 =>
    simp only [exec, execLw] at h
    split at h
    · injection h with h
      exact .inl ⟨rA, _, by simp, h.symm⟩
    · simp [raiseIn] at h
  | beq rA rB i17 =>
    simp only [exec, execBeq] at h
    refine .inr (.inr (.inr (.inr (.inr (.inl ?_)))))
    split at h
    · injection h with h
      exact ⟨rA, rB, i17, _, rfl, h.symm⟩
    · injection h with h
      exact ⟨rA, rB, i17, s.pc, rfl, h.symm⟩
  | wsr rA i22 =>
    simp only [exec, execWsr] at h
    split at h
    · injection h with h
      obtain ⟨hu, hk⟩ := statusAccess_cases ‹_›
      exact .inr (.inr (.inr (.inr (.inr (.inr (.inl ⟨rA, i22, _, rfl, hu, hk, h.symm⟩))))))
    · simp [raiseIn] at h
  | rsr rA i22 =>
    simp only [exec, execRsr] at h
    split at h
    · injection h with h
      exact .inl ⟨rA, _, by simp, h.symm⟩
    · simp [raiseIn] at h
  | iret =>
    simp only [exec, execIret] at h
    split at h
    · simp [raiseIn] at h
    · injection h with h
      exact .inr (.inr (.inr (.inr (.inr (.inr (.inr ⟨rfl, by simpa using ‹¬ s.userMode = true›, h.symm⟩))))))

end Sys2Proof.Machine
end

