-- ==== Sys2Proof/Laws/PerInstr.lean ====
section
/-! SUPPORT. Statements made per instruction, about the instruction as syntax: the word of each instruction carries its
opcode of R308 in bits 31..27. -/

namespace Sys2Proof.Laws.OpcodeField

/-- The encoded word's opcode field is the instruction's opcode (R301, R308, R311). -/
def Statement (i : Instr) : Prop := opField (encode i) = i.opcode

theorem jalr (rA rB : Reg) (i17 : Word) : Statement (.jalr rA rB i17) := (splitFields_encodeRRI _ _ _ _).1
theorem add (rA rB rC : Reg) : Statement (.add rA rB rC) := (splitFields_encodeRRR _ _ _ _).1
theorem addi (rA rB : Reg) (i17 : Word) : Statement (.addi rA rB i17) := (splitFields_encodeRRI _ _ _ _).1
theorem nand (rA rB rC : Reg) : Statement (.nand rA rB rC) := (splitFields_encodeRRR _ _ _ _).1
theorem lui (rA : Reg) (i22 : Word) : Statement (.lui rA i22) := (splitFields_encodeRI _ _ _).1
theorem sw (rA rB : Reg) (i17 : Word) : Statement (.sw rA rB i17) := (splitFields_encodeRRI _ _ _ _).1
theorem lw (rA rB : Reg) (i17 : Word) : Statement (.lw rA rB i17) := (splitFields_encodeRRI _ _ _ _).1
theorem beq (rA rB : Reg) (i17 : Word) : Statement (.beq rA rB i17) := (splitFields_encodeRRI _ _ _ _).1
theorem wsr (rA : Reg) (i22 : Word) : Statement (.wsr rA i22) := (splitFields_encodeRI _ _ _).1
theorem rsr (rA : Reg) (i22 : Word) : Statement (.rsr rA i22) := (splitFields_encodeRI _ _ _).1
theorem iret : Statement .iret := (splitFields_encodeRI _ _ _).1

end Sys2Proof.Laws.OpcodeField
end

