-- ==== Sys2Proof/Tests/Slice0.lean ====
section
/-! SUPPORT. Tests of the model against the spec's own numbers (95_test_vectors.md), and for every statement with
hypotheses a state that meets them. Numbers V<n>, A<n> and P<n> are the spec's vectors, assembler examples and programs. -/

namespace Sys2Proof.Tests

open Sys2Proof Sys2Proof.Machine

/-! ## Helpers -/

/-- `w` at word `a` and the pc there. -/
def at' (a : Word) (w : Word) (s : State) : State := { s with pc := a, mem := s.mem.writeWord a.toNat w }

/-- Words at addresses. -/
def withWords (l : List (Nat × Word)) (s : State) : State :=
  { s with mem := l.foldl (fun m e => Memory.writeWord m e.1 e.2) s.mem }

/-- The state after one step, if it goes on. -/
def after (s : State) : Option State :=
  match step s with
  | .next t => some t
  | _ => none

/-- The fault of one step, if it faults. -/
def faultOf (s : State) : Option Fault :=
  match step s with
  | .fault f => some f
  | _ => none

/-- The words of an assembled text, if it assembles. -/
def words (source : String) : Option (List Word) := (Asm.assemble source).toOption

/-- Interrupts on, with the vectors of V51 and V83. -/
def trapState : State :=
  withWords [(0x400, 0x32), (0x401, 0x3C), (0x402, 0x46), (0x40F, 0x4B)]
    ((((State.reset.setS 0 4).setS 2 0x400).setS 3 0x800).setX 29 0x4D)

/-- The page table of V30. -/
def pagedState : State :=
  withWords [(0x1000, 0x7), (0x1001, 0xC04), (0x1002, 0x1002), (0x1003, 0x100007), (0xC05, 0x55)]
    ((State.reset.setS 0 2).setS 1 0x1000)

/-- An attached TTY that answers `a` at the next probe and wants `r` in its registers. -/
def withTty (a : TtyAnswer) (r : TtyRegs) (s : State) : State :=
  { s with ttyAttached := true, ttyReplies := [{ answer := a, regs := r }] }

/-- TTY registers with nothing in them. -/
def noRegs : TtyRegs := { status := 0, inReg := 0, outReg := 0 }

/-- CF of 2 ms, and the next time draw `d` nanoseconds after 0. -/
def withClock (ltr : Option Nat) (d : Nat) (s : State) : State := { s with cf := 2, ltr := ltr, nowSteps := [d] }

/-- User mode. -/
def userState : State := State.reset.setS 0 1

/-! ## Well-formedness: one ill-formed term for each check, and the values beside it -/

theorem test_wf_i17_refused :
    (Instr.addi 1 0 0x10000).wf = false ∧ (Instr.addi 1 0 0xFFFEFFFF).wf = false ∧ (Instr.jalr 0 0 0x10000).wf = false ∧
      (Instr.sw 1 0 0x10000).wf = false ∧ (Instr.lw 1 0 0xFFFEFFFF).wf = false ∧ (Instr.beq 1 0 0x10000).wf = false := by
  decide

theorem test_wf_i22_refused :
    (Instr.lui 1 0x400000).wf = false ∧ (Instr.wsr 1 0x400000).wf = false ∧ (Instr.rsr 1 0xFFFFFFFF).wf = false := by
  decide

theorem test_wf_boundaries_accepted :
    (Instr.addi 1 0 0xFFFF).wf = true ∧ (Instr.beq 1 0 0xFFFF0000).wf = true ∧ (Instr.lui 1 0x3FFFFF).wf = true := by
  decide

/-! ## Decoding: words written out from R301 to R308, opcode | rA | rB | … -/

theorem test_decode_jalr : decode 0b00000_11111_00001_00000000000000111#32 = .ok (.jalr 31 1 7) := by decide
theorem test_decode_add : decode 0b00001_00011_00001_000000000000_00010#32 = .ok (.add 3 1 2) := by decide
theorem test_decode_addi : decode 0b00010_00001_00010_10000000000000000#32 = .ok (.addi 1 2 0xFFFF0000) := by decide
theorem test_decode_nand : decode 0b00011_11111_11110_000000000000_11101#32 = .ok (.nand 31 30 29) := by decide
theorem test_decode_lui : decode 0b00100_00001_1000000000000000000001#32 = .ok (.lui 1 0x200001) := by decide
theorem test_decode_sw : decode 0b00101_00001_11101_11111111111111111#32 = .ok (.sw 1 29 0xFFFFFFFF) := by decide
theorem test_decode_lw : decode 0b00110_00010_11101_01111111111111111#32 = .ok (.lw 2 29 0xFFFF) := by decide
theorem test_decode_beq : decode 0b00111_00001_00010_11111111111111110#32 = .ok (.beq 1 2 0xFFFFFFFE) := by decide
theorem test_decode_wsr : decode 0b01000_00001_0000000000000000000010#32 = .ok (.wsr 1 2) := by decide
theorem test_decode_rsr : decode 0b01001_11111_0000000000000000000011#32 = .ok (.rsr 31 3) := by decide
theorem test_decode_iret : decode 0b01010_00000_0000000000000000000000#32 = .ok .iret := by decide
theorem test_decode_reserved : decode 0x58000000 = .error (.reservedOpcode 11) := by decide

theorem test_encode_words :
    encode (.sw 1 29 0xFFFFFFFF) = 0x287BFFFF ∧ encode (.nand 31 30 29) = 0x1FFC001D ∧ encode (.rsr 31 3) = 0x4FC00003 ∧
      encode .iret = 0x50000000 := by decide

theorem test_decodeTableWord : decodeTableWord 32 0x07C20000 = some (.jalr 31 1 0) ∧ decodeTableWord 32 0xFFFFFFFF = none := by
  decide

theorem test_withFetchWord :
    ((after (State.reset.withFetchWord 32 0x10400006)).map fun t => (t.pc, t.getX 1)) = some (1, 6) := by decide

/-! ## One step per vector -/

theorem test_add_wraps_V2 :
    ((after (at' 10 0x08C20002 ((State.reset.setX 1 0xFFFFFFFF).setX 2 1))).map fun t => (t.pc, t.getX 3)) = some (11, 0) := by
  decide
theorem test_add_same_register_V4 :
    ((after (at' 10 0x08420001 (State.reset.setX 1 0x80000001))).map fun t => t.getX 1) = some 2 := by decide
theorem test_addi_wraps_V9 :
    ((after (at' 10 0x1044FFFF (State.reset.setX 2 0xFFFF0001))).map fun t => t.getX 1) = some 0 := by decide
theorem test_addi_sign_V8 : ((after (at' 10 0x10410000 State.reset)).map fun t => t.getX 1) = some 0xFFFF0000 := by decide
theorem test_nand_V13 :
    ((after (at' 10 0x18C20002 ((State.reset.setX 1 0xFF00FF00).setX 2 0x0FF00FF0))).map fun t => t.getX 3) =
      some 0xF0FFF0FF := by decide
theorem test_lui_V15 : ((after (at' 10 0x207FFFFF State.reset)).map fun t => t.getX 1) = some 0xFFFFFC00 := by decide
theorem test_lui_x0_V16 : ((after (at' 10 0x20000005 State.reset)).map fun t => (t.pc, t.getX 0)) = some (11, 0) := by decide
theorem test_sw_wraps_V24 :
    ((after (at' 10 0x28440002 ((State.reset.setX 1 0xAB).setX 2 0xFFFFFFFF))).map fun t => t.mem.readWord 1) =
      some 0xAB := by decide
theorem test_mmio_without_tty_V28 :
    ((after (at' 10 0x28820000 ((State.reset.setX 1 0x20001).setX 2 0x41))).map fun t =>
      (t.mem.readWord 0x20001, t.tty.status)) = some (0x41, 0) := by decide
theorem test_lw_last_word_V26 :
    ((after (at' 10 0x30440000 (withWords [(0xFFFFF, 0x1234)] (State.reset.setX 2 0xFFFFF)))).map fun t => t.getX 1) =
      some 0x1234 := by decide
theorem test_lw_paged_V30 : ((after (at' 10 0x30400405 pagedState)).map fun t => t.getX 1) = some 0x55 := by decide
theorem test_sw_without_W_V31 :
    faultOf (at' 10 0x28400405 pagedState) = some (.notPermitted .pageFlag 10 (some 0x28400405)) := by decide
theorem test_beq_taken_V40 :
    ((after (at' 10 0x38440009 ((State.reset.setX 1 7).setX 2 7))).map fun t => t.pc) = some 20 := by decide
theorem test_beq_wraps_V43 : ((after (at' 0 0x3801FFFE State.reset)).map fun t => t.pc) = some 0xFFFFFFFF := by decide
theorem test_jalr_same_register_V46 :
    ((after (at' 2 0x00420000 (State.reset.setX 1 0x64))).map fun t => (t.pc, t.getX 1)) = some (3, 3) := by decide
theorem test_trap_user_V52 :
    ((after (at' 10 0x00000001 (trapState.setS 0 0x1D))).map fun t =>
      (t.pc, t.getX 29, t.s0, t.ipc, t.is0, t.isp)) = some (0x3C, 0x800, 0x18, 11, 0x1D, 0x4D) := by decide
theorem test_wsr_all_bits_V61 :
    ((after (at' 10 0x40400000 (State.reset.setX 1 0xFFFFFFE0))).map fun t => t.s0) = some 0xFFFFFFE0 := by decide
theorem test_wsr_bad_index_V62 :
    faultOf (at' 10 0x40400004 State.reset) = some (.notPermitted .badStatusIndex 10 (some 0x40400004)) := by decide
theorem test_rsr_V65 :
    ((after (at' 10 0x48800003 (State.reset.setS 3 0x800))).map fun t => t.getX 2) = some 0x800 := by decide
theorem test_rsr_user_V66 :
    faultOf (at' 10 0x48800000 userState) = some (.notPermitted .statusRegisterInUserMode 10 (some 0x48800000)) := by
  decide
theorem test_iret_V68 :
    ((after (at' 10 0x50000000 { State.reset with ipc := 7, is0 := 5, isp := 0xC8, ltr := some 0 })).map fun t =>
      (t.pc, t.getX 29, t.s0, t.ipc)) = some (7, 0xC8, 5, 7) := by decide
theorem test_reserved_V73 : faultOf (at' 10 0xFFFFFFFF State.reset) = some (.illegalOpcode 10 0xFFFFFFFF) := by decide
theorem test_clock_fires_V83 :
    ((after (at' 10 0x08000000 (withClock (some 0) 2000000 trapState))).map fun t => (t.pc, t.ipc, t.ltr)) =
      some (0x3C, 11, some 2000000) := by decide
theorem test_clock_not_yet_V82 :
    ((after (at' 10 0x08000000 (withClock (some 0) 1999999 trapState))).map fun t => (t.pc, t.s0, t.ltr)) =
      some (11, 4, some 0) := by decide
theorem test_tty_byte_V87 :
    ((after (at' 10 0x08000000 (withTty .pending { status := 1, inReg := 0x68, outReg := 0 } trapState))).map fun t =>
      (t.pc, t.tty)) = some (0x46, { status := 1, inReg := 0x68, outReg := 0 }) := by decide
theorem test_tty_error_V86 :
    faultOf (at' 10 0x08000000 (withTty .error noRegs trapState)) = some (.deviceError 10 (some 0x08000000)) := by decide
theorem test_fetch_outside_V95 :
    faultOf { State.reset with pc := 0x100000 } = some (.segfault .physicalOutOfRange 0x100000 none) := by decide

/-! ## The assembler -/

theorem test_assemble_A6 : words "x: nop\n beq r0 r0 x" = some [0x08000000, 0x3801FFFE] := by decide
theorem test_assemble_A14 : words "movi r1 0xFFFFFFFF" = some [0x207FFFFF, 0x104203FF] := by decide
theorem test_assemble_A39 :
    Asm.assemble "a: nop\na: nop" = .error (.parseError 2 "duplicate label") := by decide
theorem test_assemble_64_bits :
    words "lli r1 0x7FFFFFFFFFFFFFFF" = some [0x104203FF] ∧
      Asm.assemble "nop\nlli r1 0x8000000000000000" = .error (.immediateOutOfRange 64 2) := by decide
theorem test_assemble_too_many :
    Asm.assemble "nop\n.space 1048576\nhalt" = .error (.tooManyInstructions 2) := by decide
theorem test_assemble_negative_space :
    Asm.assemble ".space -1" = .error (.parseError 1 "wrong operand kind") := by decide
theorem test_assemble_label_at_end : words "beq r0 r0 end\nend:" = some [0x38000000] := by decide
theorem test_disassemble : Asm.disassemble 0x3801FFFF = "beq r0 r0 -1" ∧ Asm.disassemble 0x58000000 = "<unknown 11>" := by
  decide

theorem test_bytecode :
    Asm.loadBytecode "# P1\n 0x20400000 # lui\n0x07C20000\n" = some [0x20400000, 0x07C20000] ∧
      Asm.loadBytecode "0x1\n\n0x2" = none ∧ Asm.loadBytecode "12" = none := by decide

/-! ## For every statement with hypotheses, a state and operands that meet them -/

theorem test_witness_DecodeOfEncode :
    (Instr.jalr 31 30 0xFFFF0000).WellFormed ∧ (Instr.lw 31 0 0xFFFF).WellFormed ∧ (Instr.wsr 31 0x3FFFFF).WellFormed := by
  decide

theorem test_witness_EncodeOfDecode :
    validWord 0x0FFE001F = true ∧ validWord 0x57FFFFFF = false ∧ validWord 0x50000000 = true ∧
      validWord 0x4FFFFFFF = true := by decide

/-- Every opcode, the reserved ones among them, with all operand bits set. -/
theorem test_witness_OpcodeMapDecodesFields :
    ∀ k : Fin 32, let w : Word := BitVec.ofNat 32 (k.val * 2 ^ 27 + 0x7FFFFFF)
      w.toNat / 2 ^ 27 = k.val ∧ (31 : Reg).val = w.toNat / 2 ^ 22 % 32 ∧ (31 : Reg).val = w.toNat / 2 ^ 17 % 32 ∧
      (31 : Reg).val = w.toNat % 32 ∧
      (0xFFFFFFFF : Word).toInt =
        (if w.toNat % 2 ^ 17 < 2 ^ 16 then ((w.toNat % 2 ^ 17 : Nat) : Int) else (w.toNat % 2 ^ 17 : Nat) - 2 ^ 17) ∧
      (0x3FFFFF : Word).toNat = w.toNat % 2 ^ 22 := by decide

theorem test_witness_ReservedOpcodeFaults :
    (at' 10 0x58000000 State.reset).status = .running ∧ fetch (at' 10 0x58000000 State.reset) = .ok 0x58000000 ∧
      11 ≤ (0x58000000 : Word).toNat / 2 ^ 27 ∧ fetch (at' 10 0xFFFFFFFF State.reset) = .ok 0xFFFFFFFF ∧
      11 ≤ (0xFFFFFFFF : Word).toNat / 2 ^ 27 := by decide

theorem test_witness_IgnoredBitsChangeNothing :
    ((0x08C20002 : Word).toNat / 2 ^ 27 = (0x08C3FFE2 : Word).toNat / 2 ^ 27 ∧ (0x08C20002 : Word).toNat / 2 ^ 27 = 1 ∧
      (0x08C20002 : Word).toNat / 2 ^ 17 = (0x08C3FFE2 : Word).toNat / 2 ^ 17 ∧
      (0x08C20002 : Word).toNat % 32 = (0x08C3FFE2 : Word).toNat % 32) ∧
    ((0x18C20002 : Word).toNat / 2 ^ 27 = 3 ∧ (0x18C3FFE2 : Word).toNat / 2 ^ 27 = 3 ∧
      (0x18C20002 : Word).toNat / 2 ^ 17 = (0x18C3FFE2 : Word).toNat / 2 ^ 17 ∧
      (0x18C20002 : Word).toNat % 32 = (0x18C3FFE2 : Word).toNat % 32) ∧
    ((0x50000000 : Word).toNat / 2 ^ 27 = 10 ∧ (0x57FFFFFF : Word).toNat / 2 ^ 27 = 10) ∧
    ((31 : Reg) ≠ 0 ∨ (1 : Reg) ≠ 0) ∧
    ((0xC04 : Word).toNat / 2 ^ 10 = (0xFFC : Word).toNat / 2 ^ 10 ∧ (0xC04 : Word).toNat % 8 = (0xFFC : Word).toNat % 8) := by
  decide

theorem test_witness_DecodedInstructionsAreWellFormed : decode 0x10410000 = .ok (.addi 1 0 0xFFFF0000) := by decide

theorem test_witness_LuiWritesUpperImmediate : i22InRange 0x3FFFFF = true := by decide

theorem test_witness_ResultsInX0AreDiscarded :
    State.reset.status = .running ∧ access State.reset (State.reset.getX 1 + 0xFFFF) .load = .ok (.ram 0xFFFF) ∧
      State.reset.userMode = false ∧ (3 : Word).toNat < 4 ∧ (31 : Reg) ≠ 0 := by decide

theorem test_witness_LwLoadsTheAccessedCell :
    access pagedState (pagedState.getX 0 + 0x405) .load = .ok (.ram 0xC05) ∧
      access pagedState (pagedState.getX 0 + 0x20000) .load = .ok .clock ∧
      access State.reset (State.reset.getX 0 + 0xFFFFF) .load = .ok (.ram 0xFFFFF) := by decide

theorem test_witness_SwStoresOneWord :
    pagedState.mem.wf = true ∧ access pagedState (pagedState.getX 0 + 5) .store = .ok (.ram 5) ∧
      access State.reset (State.reset.getX 0 + 0xFFFFF) .store = .ok (.ram 0xFFFFF) := by decide

theorem test_witness_SwWritesDeviceRegister :
    let s := withTty .notPending noRegs pagedState
    access s (s.getX 0 + 0x20000) .store = .ok .clock ∧ access s (s.getX 0 + 0x20001) .store = .ok .ttyStatus ∧
      access s (s.getX 0 + 0x20002) .store = .ok .ttyIn ∧ access s (s.getX 0 + 0x20003) .store = .ok .ttyOut ∧
      (∀ p, CellRef.clock ≠ .ram p) ∧ (∀ p, CellRef.ttyStatus ≠ .ram p) ∧ (∀ p, CellRef.ttyIn ≠ .ram p) ∧
      (∀ p, CellRef.ttyOut ≠ .ram p) :=
  ⟨by decide, by decide, by decide, by decide, nofun, nofun, nofun, nofun⟩

theorem test_witness_LwSwRaiseTheAccessFault :
    access pagedState (pagedState.getX 0 + 0x800) .load = .error (.notPermitted .pageFlag) ∧
      access pagedState (pagedState.getX 0 + 0x405) .store = .error (.notPermitted .pageFlag) := by decide

theorem test_witness_MmioBypassesPaging :
    (withTty .notPending noRegs State.reset).ttyAttached = true ∧ State.reset.ttyAttached = false ∧
      State.reset.paging = false ∧ 0x20001 ≤ (0x20001 : Word).toNat ∧ (0x20003 : Word).toNat ≤ 0x20003 := by decide

/-- Beside the first and the last device register, and at the last word of memory. -/
theorem test_witness_UnpagedAccessIsPhysical :
    State.reset.paging = false ∧ ¬ IsMmio State.reset.ttyAttached 0xFFFFF ∧ ¬ IsMmio State.reset.ttyAttached 0x20001 ∧
      ¬ IsMmio true 0x1FFFF ∧ ¬ IsMmio true 0x20004 ∧ (0xFFFFF : Word).toNat < 2 ^ 20 := by
  unfold IsMmio; decide

theorem test_witness_PageTableBaseMustBeAligned :
    (pagedState.setS 1 0x1001).paging = true ∧ ¬ IsMmio (pagedState.setS 1 0x1001).ttyAttached 0 ∧
      (pagedState.setS 1 0x1001).s1.toNat % 1024 ≠ 0 := by unfold IsMmio; decide

/-- V35, and the index that wraps back into memory. -/
theorem test_witness_PageTableIndexMustBeInMemory :
    let s := pagedState.setS 1 0xFFC00
    s.paging = true ∧ ¬ IsMmio s.ttyAttached 0x100000 ∧ s.s1.toNat % 1024 = 0 ∧
      2 ^ 20 ≤ (s.s1.toNat + (0x100000 : Word).toNat / 1024) % 2 ^ 32 := by unfold IsMmio; decide

theorem test_witness_PageFlagsAreRequired :
    pagedState.paging = true ∧ ¬ IsMmio pagedState.ttyAttached 0x405 ∧ pagedState.s1.toNat % 1024 = 0 ∧
      pteIndex pagedState 0x405 < 2 ^ 20 ∧ (pteOf pagedState 0x405).getLsbD 2 = true ∧
      (pteOf pagedState 0x405).getLsbD 1 = false ∧ (pteOf pagedState 0x405).getLsbD 0 = false ∧
      (pteOf pagedState 0x800).getLsbD 2 = false ∧ (pteOf pagedState 0x1400).toNat % 8 = 0 := by unfold IsMmio; decide

theorem test_witness_PhysicalAddressMustBeInMemory :
    (¬ IsMmio State.reset.ttyAttached 0x100000 ∧ State.reset.paging = false ∧ 2 ^ 20 ≤ (0x100000 : Word).toNat) ∧
    (¬ IsMmio pagedState.ttyAttached 0xC00 ∧ pagedState.paging = true ∧ pagedState.s1.toNat % 1024 = 0 ∧
      pteIndex pagedState 0xC00 < 2 ^ 20 ∧ PageFlags.load.subset (pteFlags (pteOf pagedState 0xC00)) = true ∧
      2 ^ 20 ≤ pagedAddress (pteOf pagedState 0xC00) 0xC00) := by unfold IsMmio; decide

theorem test_witness_PagedAccessReachesTheMappedWord :
    pagedState.paging = true ∧ ¬ IsMmio pagedState.ttyAttached 0x7FF ∧ pagedState.s1.toNat % 1024 = 0 ∧
      pteIndex pagedState 0x7FF < 2 ^ 20 ∧ PageFlags.load.subset (pteFlags (pteOf pagedState 0x7FF)) = true ∧
      (pteOf pagedState 0x7FF).toNat / 1024 * 1024 + (0x7FF : Word).toNat % 1024 < 2 ^ 20 := by unfold IsMmio; decide

theorem test_witness_StoreIsSeenByTheNextAccess :
    pagedState.mem.wf = true ∧ access pagedState 5 .store = .ok (.ram 5) ∧
      ∃ t, memWrite pagedState 5 9 = .ok t ∧ access t 5 .fetch = .ok (.ram 5) ∧ access t 5 .load = .ok (.ram 5) :=
  ⟨by decide, by decide, _, rfl, by decide, by decide⟩

theorem test_witness_JalrLinksAndJumps :
    ((31 : Reg) ≠ 0 ∨ (0 : Reg) ≠ 0) ∧ ((0 : Reg) ≠ 0 ∨ (31 : Reg) ≠ 0) := by decide

theorem test_witness_JalrHaltsWithInterruptsOff : State.reset.interrupts = false ∧ userState.interrupts = false := by decide

theorem entryReady_trapState : ∀ code : Word, code = 0 ∨ code = 1 ∨ code = 2 ∨ code = 15 ∨ code = 16 ∨ code = 0xFFFFFFFF →
    EntryReady code trapState := by
  rintro code (rfl | rfl | rfl | rfl | rfl | rfl) <;> exact ⟨by decide, by decide, by decide⟩

/-- The last code, the first clamped one and a negative one. -/
theorem test_witness_JalrTrapsWithInterruptsOn :
    trapState.interrupts = true ∧ EntryReady 15 trapState ∧ EntryReady 16 trapState ∧ EntryReady 0xFFFFFFFF trapState :=
  ⟨by decide, entryReady_trapState _ (by decide), entryReady_trapState _ (by decide), entryReady_trapState _ (by decide)⟩

theorem test_witness_BeqBranchesOnEquality :
    State.reset.getX 1 = State.reset.getX 2 ∧ (State.reset.setX 1 7).getX 1 ≠ (State.reset.setX 1 7).getX 2 := by decide

theorem test_witness_WsrWritesTheStatusRegister :
    State.reset.userMode = false ∧ (3 : Word).toNat = (3 : Fin 4).val ∧ (0 : Word).toNat = (0 : Fin 4).val := by decide

theorem test_witness_RsrReadsTheStatusRegister :
    trapState.userMode = false ∧ (3 : Word).toNat = (3 : Fin 4).val := by decide

/-- Kernel mode with a bad index, user mode, and both at once. -/
theorem test_witness_PrivilegedInstructionsNotPermitted :
    userState.userMode = true ∧ State.reset.userMode = false ∧ 4 ≤ (4 : Word).toNat ∧ 4 ≤ (0x3FFFFF : Word).toNat ∧
      exec (.wsr 1 4) userState = .fault (.notPermitted .statusRegisterInUserMode (userState.pc - 1) none) :=
  ⟨by decide, by decide, by decide, by decide, rfl⟩

theorem test_witness_IretRestoresFromTheShadows : trapState.userMode = false ∧ userState.userMode = true := by decide

theorem test_witness_EntrySavesAndSwitches : EntryReady 1 trapState := entryReady_trapState _ (by decide)

theorem test_witness_EntryFaultsInOrder :
    (trapState.setS 2 0x401).s2.toNat % 1024 ≠ 0 ∧
    ((trapState.setS 3 0x801).s2.toNat % 1024 = 0 ∧ (trapState.setS 3 0x801).s3.toNat % 1024 ≠ 0) ∧
    ((trapState.setS 2 0x100000).s2.toNat % 1024 = 0 ∧ (trapState.setS 2 0x100000).s3.toNat % 1024 = 0 ∧
      2 ^ 20 ≤ (trapState.setS 2 0x100000).s2.toNat + vectorCode 0) := by decide

/-- Each of the three causes, at the trap, at the clock of V83 and at the TTY. -/
theorem test_witness_TrapAndPollRaiseTheEntryFault :
    ((trapState.setS 2 0x401).interrupts = true ∧ EntryRaises 1 (trapState.setS 2 0x401) .vectorBaseMisaligned) ∧
    ((trapState.setS 3 0x801).interrupts = true ∧ EntryRaises 1 (trapState.setS 3 0x801) .interruptStackMisaligned) ∧
    ((trapState.setS 2 0x100000).interrupts = true ∧ EntryRaises 0 (trapState.setS 2 0x100000) .vectorOutOfRange ∧
      EntryRaises 0xFFFFFFFF (trapState.setS 2 0x100000) .vectorOutOfRange) ∧
    (let s := withClock (some 0) 2000000 (trapState.setS 2 0x401)
     s.interrupts = true ∧ s.cf ≠ 0 ∧ s.ltr = some 0 ∧ s.cf.toNat * 1000000 ≤ s.now - 0 ∧
       EntryRaises 1 s .vectorBaseMisaligned) ∧
    (let s := withTty .pending noRegs (trapState.setS 3 0x801)
     s.interrupts = true ∧ s.ttyAttached = true ∧ s.nextTtyReply.answer = .pending ∧ s.cf = 0 ∧
       EntryRaises 2 s .interruptStackMisaligned) := by
  unfold EntryRaises
  exact ⟨by decide, by decide, by decide, by decide, by decide⟩

theorem test_witness_LargeCodesAreCodeZero : 16 ≤ (16 : Word).toNat ∧ (0xFFFFFFFF : Word).toInt < 0 := by decide

theorem test_witness_IretUndoesEntry :
    ∃ t, interrupt 1 trapState = .ok t ∧ SameShadows t t ∧ t.userMode = false :=
  ⟨_, rfl, ⟨rfl, rfl, rfl⟩, by decide⟩

theorem test_witness_PollIsMaskedByInterrupts : (withClock (some 0) 5000000 State.reset).interrupts = false := by decide

/-- At exactly CF milliseconds (V83). -/
theorem test_witness_ClockInterruptFires :
    let s := withClock (some 0) 2000000 trapState
    s.interrupts = true ∧ s.cf ≠ 0 ∧ s.ltr = some 0 ∧ s.cf.toNat * 1000000 ≤ s.now - 0 ∧ EntryReady 1 s :=
  ⟨by decide, by decide, rfl, by decide, ⟨by decide, by decide, by decide⟩⟩

/-- One nanosecond before (V82). -/
theorem test_witness_ClockNotDueGoesOnToTheTty :
    let s := withClock (some 0) 1999999 trapState
    s.interrupts = true ∧ s.cf ≠ 0 ∧ s.ltr = some 0 ∧ s.now - 0 < s.cf.toNat * 1000000 := by decide

theorem test_witness_FirstClockCheckNeverFires :
    let s := withClock none 5000000 trapState
    s.interrupts = true ∧ s.cf ≠ 0 ∧ s.ltr = none := by decide

/-- Each answer, and CF not 0 with no clock interrupt (V82) before the check. -/
theorem test_witness_TtyCheckFollowsTheProbe :
    (trapState.interrupts = true ∧ trapState.cf = 0 ∧ trapState.ttyAttached = false) ∧
    ((withTty .notPending noRegs trapState).ttyAttached = true ∧
      (withTty .notPending noRegs trapState).nextTtyReply.answer = .notPending) ∧
    (withTty .error noRegs trapState).nextTtyReply.answer = .error ∧
    (let s := (withTty .pending noRegs (withClock (some 0) 1999999 trapState)).clockChecked
     s.cf ≠ 0 ∧ s.ttyAttached = true ∧ s.nextTtyReply.answer = .pending ∧ s.s2.toNat % 1024 = 0 ∧
       s.s3.toNat % 1024 = 0 ∧ s.s2.toNat + vectorCode 2 < memWords) := by decide

/-- A device that asks for every status bit and a word wider than a byte. -/
theorem test_witness_TtyProbeKeepsTheProtocol :
    let s := withTty .pending { status := 0xFFFFFFFF, inReg := 0x168, outReg := 0 } trapState
    let u : State := { s with tty := { status := 3, inReg := 0, outReg := 0 } }
    s.tty.status.getLsbD 1 = false ∧ s.tty.status.getLsbD 0 = false ∧ s.afterProbe.tty.status.getLsbD 0 = true ∧
      s.nextTtyReply.regs.status.getLsbD 0 = true ∧ s.afterProbe.tty.inReg = 0x68 ∧ u.tty.status.getLsbD 0 = true ∧
      (withTty .notPending noRegs trapState).nextTtyReply.regs.status.getLsbD 0 = false := by decide

theorem test_witness_NoPollDeliveryAfterATrap :
    let s := withClock (some 0) 9000000 trapState
    s.status = .running ∧ s.interrupts = true ∧ EntryReady 0 s :=
  ⟨rfl, by decide, ⟨by decide, by decide, by decide⟩⟩

theorem test_witness_StepRunsTheDecodedInstruction :
    let s := at' 0xFFFFF 0x08C20002 State.reset
    s.status = .running ∧ fetch s = .ok 0x08C20002 ∧ decode 0x08C20002 = .ok (.add 3 1 2) := by decide

/-- A poll that goes on, and one that raises (V86). -/
theorem test_witness_BoundaryForcesX0AndPolls :
    trapState.status = .running ∧ poll trapState = .ok trapState ∧
      poll (withTty .error noRegs trapState) = .error .deviceError := ⟨rfl, rfl, rfl⟩

/-- A fetch through a page with X only (V97). -/
def xOnly : State := at' 10 0x08000000 (withWords [(0x1000, 1)] ((State.reset.setS 0 2).setS 1 0x1000))

/-- A fetch through a page with R only (V96). -/
def rOnly : State := at' 10 0x08000000 (withWords [(0x1000, 4)] ((State.reset.setS 0 2).setS 1 0x1000))

theorem test_fetch_flags_V96_V97 :
    faultOf rOnly = some (.notPermitted .pageFlag 10 none) ∧ faultOf xOnly = some (.notPermitted .pageFlag 10 none) := by
  decide

theorem test_witness_FaultsCarryAddressAndWord :
    fetch { State.reset with pc := 0x100000 } = .error (.segfault .physicalOutOfRange) ∧
    access (at' 10 0x08C20002 State.reset) 10 { r := true, w := false, x := true } = .ok (.ram 10) ∧
    access xOnly xOnly.pc { r := true, w := false, x := true } = .error (.notPermitted .pageFlag) ∧
    access rOnly rOnly.pc { r := true, w := false, x := true } = .error (.notPermitted .pageFlag) ∧
    (let s := at' 10 0x48800000 userState
     s.status = .running ∧ fetch s = .ok 0x48800000 ∧ decode 0x48800000 = .ok (.rsr 2 0) ∧
      exec (.rsr 2 0) { s with pc := s.pc + 1 } =
        .fault ((Raise.notPermitted .statusRegisterInUserMode).toFault (s.pc + 1 - 1) none)) :=
  ⟨rfl, by decide, by decide, by decide, rfl, by decide, by decide, rfl⟩

theorem test_witness_HaltEndsTheRun :
    State.reset.status = .running ∧ fetch State.reset = .ok 0 ∧ decode 0 = .ok (.jalr 0 0 0) ∧
      State.reset.interrupts = false := by decide

theorem test_witness_StepKeepsInvariant :
    (at' 10 0x10400006 State.reset).Inv ∧ ∃ t, step (at' 10 0x10400006 State.reset) = .next t :=
  ⟨⟨by decide, by decide, nofun⟩, _, rfl⟩

theorem test_witness_X0IsZeroAfterEveryStep :
    (at' 10 0x20000005 State.reset).getX 0 = 0 ∧ ∃ t, step (at' 10 0x20000005 State.reset) = .next t :=
  ⟨by decide, _, rfl⟩

/-- A user-mode step of each kind: one that stays (V1's word) and one that traps (V52). -/
theorem test_witness_UserModeLeavesOnlyThroughTheVectors :
    (userState.userMode = true ∧ ∃ t, step (at' 10 0x08C20002 userState) = .next t) ∧
    ((trapState.setS 0 0x1D).userMode = true ∧ ∃ t, step (at' 10 0x00000001 (trapState.setS 0 0x1D)) = .next t) :=
  ⟨⟨by decide, _, rfl⟩, by decide, _, rfl⟩

theorem test_witness_UserModeIsEnteredOnlyByWsrOrIret :
    (∃ t, step (at' 10 0x40400000 (State.reset.setX 1 1)) = .next t ∧ t.userMode = true) ∧
    (∃ t, step (at' 10 0x50000000 { State.reset with is0 := 1 }) = .next t ∧ t.userMode = true) :=
  ⟨⟨_, rfl, by decide⟩, ⟨_, rfl, by decide⟩⟩

theorem test_witness_OnlySwChangesMemory :
    ∃ t, step (at' 10 0x287A0000 ((State.reset.setX 1 0x1C).setX 29 0x64)) = .next t ∧
      t.mem.readByte 400 ≠ (at' 10 0x287A0000 ((State.reset.setX 1 0x1C).setX 29 0x64)).mem.readByte 400 :=
  ⟨_, rfl, by decide⟩

theorem test_witness_PagedStoresStayInWritablePages :
    (at' 10 0x28400005 (pagedState.setX 1 9)).paging = true ∧
    ∃ t, step (at' 10 0x28400005 (pagedState.setX 1 9)) = .next t ∧
      t.mem.readByte 20 ≠ (at' 10 0x28400005 (pagedState.setX 1 9)).mem.readByte 20 :=
  ⟨by decide, _, rfl, by decide⟩

theorem test_witness_TimeAdvancesAndTtyStays :
    ∃ t, step (at' 10 0x08000000 (withClock (some 0) 1999999 trapState)) = .next t ∧ t.hostNow = 1999999 :=
  ⟨_, rfl, by decide⟩

theorem test_witness_ResetRegisters : State.reset = bootState [] false [] [] := by decide

theorem test_witness_ResetMemoryHoldsTheImage :
    [(0x08000000 : Word), 0].length ≤ 2 ^ 20 ∧ (List.replicate (2 ^ 20) (0 : Word)).length ≤ 2 ^ 20 :=
  ⟨by decide, by rw [List.length_replicate]⟩

/-- The ends of the range as literals, and the label of the source's own `movi r1 _main` (95_test_vectors.md 1.1). -/
theorem test_witness_MoviLoadsItsOperand :
    Asm.resolve [] 1 (.lit 0) = .ok 0 ∧ Asm.resolve [] 1 (.lit 0xFFFFFFFF) = .ok 0xFFFFFFFF ∧
      (0 : Int) ≤ 0xFFFFFFFF ∧ (0xFFFFFFFF : Int) < 2 ^ 32 ∧
      Asm.resolve [("_main", 4)] 1 (.label "_main") = .ok 4 ∧
      words "movi r1 _main\njalr r31 r1\nhalt\n  _main: nop" =
        some [0x20400000, 0x10420004, 0x07C20000, 0, 0x08000000] := by decide

/-- A literal and a label, and the last offsets accepted and the first refused (A8 to A10). -/
theorem test_witness_BeqAssemblesItsTarget :
    Asm.resolve [] 1 (.lit 65537) = .ok 65537 ∧ Asm.resolve [("L", 7)] 1 (.label "L") = .ok 7 ∧
    (-65536 ≤ (-65535 : Int) - ((0 : Nat) + 1) ∧ (65536 : Int) - ((0 : Nat) + 1) ≤ 65535) ∧
    (65535 < (65537 : Int) - ((0 : Nat) + 1) ∧ (-65536 : Int) - ((0 : Nat) + 1) < -65536) := by decide

end Sys2Proof.Tests
end

section
/-! PROOFS. The family 10_state.md: x[0] between steps (R101), and memory after reset (R120, R701). -/

namespace Sys2Proof.Machine

/-! ## x[0] through a step -/

/-- Only the halt form of JALR changes the run status, and it changes nothing else (R406). -/
theorem exec_status_cases {i : Instr} {s t : State} (h : exec i s = .next t) :
    t.status = s.status ∨ ∃ i17, i = .jalr 0 0 i17 ∧ s.interrupts = false ∧ t = { s with status := .halted } := by
  obtain ⟨rA, v, -, rfl⟩ | ⟨rA, rB, i17, -, -, rfl⟩ | halt | ⟨i17, -, -, trap⟩ | ⟨rA, rB, i17, c, -, -, rfl⟩ |
    ⟨rA, rB, i17, v, -, rfl⟩ | ⟨rA, i22, k, -, -, -, rfl⟩ | ⟨-, -, rfl⟩ := exec_cases h
  · exact .inl (State.setX_status s rA v)
  · exact .inl (linkAndJump_status rA rB s)
  · exact .inr halt
  · exact .inl (interrupt_entered trap).status
  · exact .inl (CellRef.write_status s _ c)
  · exact .inl rfl
  · exact .inl (State.setS_status s k _)
  · exact .inl (returnFromInterrupt_status s)

/-- Interrupt entry writes no general register but x[29] (R605). -/
theorem interrupt_getX {code : Word} {s t : State} {r : Reg} (hr : r ≠ stackReg) (h : interrupt code s = .ok t) :
    t.getX r = s.getX r :=
  (interrupt_entered h).regs r (by simpa using hr)

theorem pollTty_getX {s t : State} {r : Reg} (hr : r ≠ stackReg) (h : pollTty s = .ok t) :
    t.getX r = s.getX r := by
  obtain ⟨-, rfl⟩ | ⟨-, -, rfl⟩ | ⟨-, -, entry⟩ := pollTty_cases h
  · rfl
  · exact State.afterProbe_getX s r
  · rw [interrupt_getX hr entry, State.afterProbe_getX]

/-- The poll writes no general register but x[29], and that one only through interrupt entry (R611 to R613). -/
theorem poll_getX {s t : State} {r : Reg} (hr : r ≠ stackReg) (h : poll s = .ok t) : t.getX r = s.getX r := by
  obtain ⟨-, rfl⟩ | ⟨-, -, tty⟩ | ⟨-, -, -, tty⟩ | ⟨-, -, -, entry⟩ := poll_cases h
  · rfl
  · exact pollTty_getX hr tty
  · rw [pollTty_getX hr tty, State.clockChecked_getX]
  · rw [interrupt_getX hr entry, State.clockFired_getX]

/-- Settles O50: a halt writes no register, and after any other instruction the boundary forces x[0] to 0 and the poll
leaves it alone. -/
theorem x0IsZeroAfterEveryStep : Obligations.X0IsZeroAfterEveryStep := by
  intro s u hzero hstep
  obtain ⟨hrun, w, i, t, -, -, hexec, ⟨hhalt, rfl⟩ | ⟨-, hpoll⟩⟩ := step_cases hstep
  · obtain hkeep | ⟨i17, -, -, rfl⟩ := exec_status_cases hexec
    · rw [State.advancePc_status, hrun, hhalt] at hkeep
      cases hkeep
    · exact hzero
  · rw [poll_getX (by decide) hpoll, State.forceX0_zero]

/-! ## Memory after reset -/

/-- An image that fits stands in memory from word 0 on, with zeros above it (R120). -/
theorem readWord_bootState {image : List Word} (hfits : image.length ≤ memWords) (attached : Bool)
    (nowSteps : List Nat) (replies : List TtyReply) (p : Nat) :
    (bootState image attached nowSteps replies).mem.readWord p = (image[p]?).getD 0 := by
  have hplace := Memory.readWord_place (ws := image) (m := []) (p := 0) (by omega) rfl p
  rw [Nat.zero_add, Memory.readWord_nil] at hplace
  rwa [bootState, List.take_of_length_le hfits]

/-- The first fetch after reset is from word 0 of memory: paging is off and address 0 is no device's (R701). -/
theorem fetch_bootState (image : List Word) (attached : Bool) (nowSteps : List Nat) (replies : List TtyReply) :
    fetch (bootState image attached nowSteps replies) =
      .ok ((bootState image attached nowSteps replies).mem.readWord 0) := by
  have hmmio : ¬ IsMmio attached 0 := by simp [IsMmio]
  have haccess := access_unpaged (req := .fetch) hmmio (bootState_paging image attached nowSteps replies)
  exact fetch_ok haccess

/-- Settles O57: the image is placed at word 0 of an empty memory, and the first fetch reads that word. -/
theorem resetMemoryHoldsTheImage : Obligations.ResetMemoryHoldsTheImage := by
  intro image attached nowSteps replies hfits
  have hread := readWord_bootState hfits attached nowSteps replies
  exact ⟨hread, by rw [fetch_bootState, hread]⟩

end Sys2Proof.Machine
end

section
/-! PROOFS. The family 20_memory.md: what one step does to memory, and the access path (R204 to R213). -/

namespace Sys2Proof.Machine

/-! ## Memory through a step -/

theorem pollTty_mem {s t : State} (h : pollTty s = .ok t) : t.mem = s.mem := by
  obtain ⟨-, rfl⟩ | ⟨-, -, rfl⟩ | ⟨-, -, entry⟩ := pollTty_cases h
  · rfl
  · exact State.afterProbe_mem s
  · rw [(interrupt_entered entry).memory, State.afterProbe_mem]

/-- The poll writes no memory, whatever it delivers (R611 to R613). -/
theorem poll_mem {s t : State} (h : poll s = .ok t) : t.mem = s.mem := by
  obtain ⟨-, rfl⟩ | ⟨-, -, tty⟩ | ⟨-, -, -, tty⟩ | ⟨-, -, -, entry⟩ := poll_cases h
  · rfl
  · exact pollTty_mem tty
  · rw [pollTty_mem tty, State.clockChecked_mem]
  · rw [(interrupt_entered entry).memory, State.clockFired_mem]

/-- A write through a cell writes memory only when the cell is a word of M (R218). -/
theorem CellRef.write_mem_cases (s : State) (v : Word) (c : CellRef) :
    (c.write s v).mem = s.mem ∨ ∃ p, c = .ram p ∧ (c.write s v).mem = s.mem.writeWord p v := by
  cases c with
  | ram p => exact .inr ⟨p, rfl, rfl⟩
  | clock | ttyStatus | ttyIn | ttyOut => exact .inl rfl

/-- An instruction leaves memory alone, or it is a SW that writes x[rA] to the one word its access resolves to. -/
theorem exec_mem_cases {i : Instr} {s t : State} (h : exec i s = .next t) :
    t.mem = s.mem ∨ ∃ rA rB i17 p, i = .sw rA rB i17 ∧
      access s (effectiveAddress s rB i17) .store = .ok (.ram p) ∧ t.mem = s.mem.writeWord p (s.getX rA) := by
  obtain ⟨rA, v, -, rfl⟩ | ⟨rA, rB, i17, -, -, rfl⟩ | ⟨i17, -, -, rfl⟩ | ⟨i17, -, -, trap⟩ |
    ⟨rA, rB, i17, c, rfl, haccess, rfl⟩ | ⟨rA, rB, i17, v, -, rfl⟩ | ⟨rA, i22, k, -, -, -, rfl⟩ | ⟨-, -, rfl⟩ :=
    exec_cases h
  · exact .inl (State.setX_mem s rA v)
  · exact .inl (linkAndJump_mem rA rB s)
  · exact .inl rfl
  · exact .inl (interrupt_entered trap).memory
  · obtain hkeep | ⟨p, rfl, hwrite⟩ := CellRef.write_mem_cases s (s.getX rA) c
    · exact .inl hkeep
    · exact .inr ⟨rA, rB, i17, p, rfl, haccess, hwrite⟩
  · exact .inl rfl
  · exact .inl (State.setS_mem s k _)
  · exact .inl (returnFromInterrupt_mem s)

/-- A step leaves memory alone, or it runs a SW that writes x[rA] to the one word its access resolves to. -/
theorem step_mem_cases {s u : State} (h : step s = .next u) :
    u.mem = s.mem ∨ ∃ w rA rB i17 p, fetch s = .ok w ∧ decode w = .ok (.sw rA rB i17) ∧
      access s (s.getX rB + i17) .store = .ok (.ram p) ∧ u.mem = s.mem.writeWord p (s.getX rA) := by
  obtain ⟨-, w, i, t, hfetch, hdecode, hexec, hboundary⟩ := step_cases h
  have hu : u.mem = t.mem := by
    obtain ⟨-, rfl⟩ | ⟨-, hpoll⟩ := hboundary
    · rfl
    · rw [poll_mem hpoll, State.forceX0_mem]
  obtain hkeep | ⟨rA, rB, i17, p, rfl, haccess, hwrite⟩ := exec_mem_cases hexec
  · exact .inl (hu.trans hkeep)
  · have hadvance := access_congr (s := s) (t := s.advancePc) (s.getX rB + i17) .store rfl rfl rfl rfl
    exact .inr ⟨w, rA, rB, i17, p, hfetch, hdecode, hadvance.symm.trans haccess, hu.trans hwrite⟩

/-- A byte that a word write changes lies in that word. -/
theorem Memory.in_word_of_readByte_writeWord_ne {m : Memory} {p a : Nat} {v : Word}
    (h : (m.writeWord p v).readByte a ≠ m.readByte a) : 4 * p ≤ a ∧ a < 4 * p + 4 := by
  by_contra houtside
  exact h (Memory.readByte_writeWord_outside (by omega))

/-! ## Paged accesses -/

/-- A paged access that reaches a word of M has its page-table entry inside M, with the requested flags, and the word
is the one that entry maps (R208 to R213). -/
theorem access_paged_ram {s : State} {addr : Word} {req : PageFlags} {p : Nat} (hpaging : s.paging = true)
    (h : access s addr req = .ok (.ram p)) :
    s.s1.toNat % 1024 = 0 ∧ pteIndex s addr < memWords ∧ req.subset (pteFlags (pteOf s addr)) = true ∧
      p = pagedAddress (pteOf s addr) addr := by
  obtain ⟨-, hdevice⟩ | ⟨-, q, hq, -, ⟨hunpaged, -⟩ | ⟨-, haligned, hindex, hflags, rfl⟩⟩ := access_cases h
  · exact absurd hdevice mmioCell_ne_ram
  · rw [hpaging] at hunpaged
    cases hunpaged
  · injection hq with hq
    exact ⟨haligned, hindex, hflags, hq⟩

/-- The page that holds a translated address is the entry's (R212). -/
theorem pagedAddress_div (pte addr : Word) : pagedAddress pte addr / 1024 = pte.toNat / 1024 := by
  unfold pagedAddress
  omega

/-- What fetch asks of an entry: R and X (R204, R211). -/
@[simp] theorem subset_fetch (pte : Word) :
    PageFlags.fetch.subset (pteFlags pte) = (pte.getLsbD 2 && pte.getLsbD 0) := by
  simp [PageFlags.subset, PageFlags.fetch, pteFlags]

/-- What LW asks of an entry: R (R204, R211). -/
@[simp] theorem subset_load (pte : Word) : PageFlags.load.subset (pteFlags pte) = pte.getLsbD 2 := by
  simp [PageFlags.subset, PageFlags.load, pteFlags]

/-- What SW asks of an entry: W (R204, R211). -/
@[simp] theorem subset_store (pte : Word) : PageFlags.store.subset (pteFlags pte) = pte.getLsbD 1 := by
  simp [PageFlags.subset, PageFlags.store, pteFlags]

/-- Settles O54: a byte changes only in the word that a SW's access resolves to, and with paging on that word lies in
the page of the entry for the SW's own address, which grants W. -/
theorem pagedStoresStayInWritablePages : Obligations.PagedStoresStayInWritablePages := by
  intro s t a hpaging hstep hchanged
  obtain hkeep | ⟨w, rA, rB, i17, p, -, -, haccess, hwrite⟩ := step_mem_cases hstep
  · exact absurd (by rw [hkeep]) hchanged
  rw [hwrite] at hchanged
  obtain ⟨hlo, hhi⟩ := Memory.in_word_of_readByte_writeWord_ne hchanged
  obtain ⟨haligned, hindex, hflags, hp⟩ := access_paged_ram hpaging haccess
  have hpage := pagedAddress_div (pteOf s (s.getX rB + i17)) (s.getX rB + i17)
  rw [← hp] at hpage
  refine ⟨haligned, (s.getX rB + i17).toNat / 1024, by omega, hindex, (subset_store _).symm.trans hflags, ?_⟩
  rw [show a / 4 = p by omega]
  exact hpage

/-- A paged access whose page-table entry lies inside M: the flags, then the bounds (R211 to R213). -/
theorem access_paged_entry {s : State} {addr : Word} {req : PageFlags} (hpaging : s.paging = true)
    (hmmio : ¬ IsMmio s.ttyAttached addr) (haligned : s.s1.toNat % 1024 = 0) (hindex : pteIndex s addr < memWords) :
    access s addr req =
      if req.subset (pteFlags (pteOf s addr)) then
        if pagedAddress (pteOf s addr) addr < memWords then .ok (.ram (pagedAddress (pteOf s addr) addr))
        else .error (.segfault .physicalOutOfRange)
      else .error (.notPermitted .pageFlag) := by
  rw [access_paged hmmio hpaging, if_pos haligned, if_pos hindex]

/-- With its entry inside M, a paged access raises NotPermitted exactly when the entry lacks a requested flag (R211). -/
theorem access_eq_pageFlag_iff {s : State} {addr : Word} {req : PageFlags} (hpaging : s.paging = true)
    (hmmio : ¬ IsMmio s.ttyAttached addr) (haligned : s.s1.toNat % 1024 = 0) (hindex : pteIndex s addr < memWords) :
    access s addr req = .error (.notPermitted .pageFlag) ↔ req.subset (pteFlags (pteOf s addr)) = false := by
  rw [access_paged_entry hpaging hmmio haligned hindex]
  split_ifs with hflags hbounds
  · simp [hflags]
  · simp [hflags]
  · simpa using hflags

/-- The low three bits of a multiple of 8 are clear. -/
theorem getLsbD_of_mod_eight {v : Word} (h : v.toNat % 8 = 0) {k : Nat} (hk : k < 3) : v.getLsbD k = false := by
  have hbit := Nat.testBit_mod_two_pow v.toNat 3 k
  rw [show 2 ^ 3 = 8 from rfl, h, Nat.zero_testBit, decide_eq_true hk, Bool.true_and] at hbit
  exact hbit.symm

/-- Settles O21: each request's flags are the bits of the entry that R204 names, and an entry whose low three bits are
clear has none of them. -/
theorem pageFlagsAreRequired : Obligations.PageFlagsAreRequired := by
  intro s addr hpaging hmmio haligned hindex
  have hiff (req : PageFlags) := access_eq_pageFlag_iff (req := req) hpaging hmmio haligned hindex
  refine ⟨?_, ?_, ?_, fun hclear req hreq => (hiff req).mpr ?_⟩
  · rw [hiff, subset_fetch, Bool.and_eq_false_iff]
  · rw [hiff, subset_load]
  · rw [hiff, subset_store]
  · have hbit {k : Nat} (hk : k < 3) := getLsbD_of_mod_eight hclear hk
    obtain rfl | rfl | rfl := hreq
    · rw [subset_fetch, hbit (by omega), Bool.false_and]
    · rw [subset_load, hbit (by omega)]
    · rw [subset_store, hbit (by omega)]

/-- Settles O22: the bounds check is the last of the access path, on the address itself or on its translation. -/
theorem physicalAddressMustBeInMemory : Obligations.PhysicalAddressMustBeInMemory := by
  intro s addr req hmmio
  refine ⟨fun hpaging hout => ?_, fun hpaging haligned hindex hflags hout => ?_⟩
  · rw [access_unpaged hmmio hpaging]
    exact if_neg (Nat.not_lt.mpr hout)
  · rw [access_paged_entry hpaging hmmio haligned hindex, if_pos hflags]
    exact if_neg (Nat.not_lt.mpr hout)

/-- Settles O23: with every check passed the access resolves to the translated address. -/
theorem pagedAccessReachesTheMappedWord : Obligations.PagedAccessReachesTheMappedWord := by
  intro s addr req hpaging hmmio haligned hindex hflags hin
  rw [access_paged_entry hpaging hmmio haligned hindex, if_pos hflags]
  exact if_pos hin

/-- Settles O19: the alignment of S[1] is the first check of a paged access. -/
theorem pageTableBaseMustBeAligned : Obligations.PageTableBaseMustBeAligned := by
  intro s addr req hpaging hmmio hmisaligned
  rw [access_paged hmmio hpaging, if_neg hmisaligned]

/-- Settles O20: the bound on the entry's index is the second check of a paged access. -/
theorem pageTableIndexMustBeInMemory : Obligations.PageTableIndexMustBeInMemory := by
  intro s addr req hpaging hmmio haligned hout
  rw [access_paged hmmio hpaging, if_pos haligned]
  exact if_neg (Nat.not_lt.mpr hout)

/-! ## Unpaged and device accesses -/

/-- Settles O18: with paging off the address outside MMIO meets the bounds check as it is. -/
theorem unpagedAccessIsPhysical : Obligations.UnpagedAccessIsPhysical := by
  intro s addr req hpaging hmmio hin
  rw [access_unpaged hmmio hpaging]
  exact if_pos hin

/-- With no TTY attached only the clock's address is a device's (R205, D22). -/
theorem isMmio_detached_iff (addr : Word) : IsMmio false addr ↔ addr = 0x20000 := by
  simp [IsMmio]

/-- Settles O17: the MMIO decode comes before the mode, the paging and the request are looked at, and it knows the TTY's
addresses only while one is attached. -/
theorem mmioBypassesPaging : Obligations.MmioBypassesPaging := by
  intro s req
  refine ⟨access_of_mmio rfl, fun hattached => ?_, fun hdetached addr hlo hhi => ?_⟩
  · have hdevice {addr : Word} {c : CellRef} (h : mmioCell true addr = some c) : access s addr req = .ok c :=
      access_of_mmio (hattached ▸ h)
    exact ⟨hdevice rfl, hdevice rfl, hdevice rfl⟩
  · have hmmio : ¬ IsMmio s.ttyAttached addr := by
      rw [hdetached, isMmio_detached_iff]
      rintro rfl
      exact absurd hlo (by decide)
    exact ⟨hmmio, fun hpaging => unpagedAccessIsPhysical s addr req hpaging hmmio (by omega)⟩

/-! ## A read after a store -/

/-- What a cell holds does not depend on the pc. -/
theorem CellRef.read_pc (s : State) (pc : Word) (c : CellRef) : c.read { s with pc := pc } = c.read s := by
  cases c <;> rfl

/-- After a store that succeeds, its cell holds the value stored (R220). -/
theorem read_of_memWrite {s t : State} {addr v : Word} {c : CellRef} (hwf : s.mem.wf = true)
    (haccess : access s addr .store = .ok c) (hwrite : memWrite s addr v = .ok t) : c.read t = v := by
  rw [memWrite_ok haccess] at hwrite
  injection hwrite with hwrite
  rw [← hwrite]
  exact CellRef.read_write_self hwf fun p hp => access_ram_lt (hp ▸ haccess)

/-- Settles O24: fetch and LW read the cell their access resolves to, and the store left its value there. -/
theorem storeIsSeenByTheNextAccess : Obligations.StoreIsSeenByTheNextAccess := by
  intro s t addr v addr' c hwf hstore hwrite
  have hread := read_of_memWrite hwf hstore hwrite
  refine ⟨fun hfetch => ?_, fun hload => ?_⟩
  · rw [fetch_ok (s := { t with pc := addr' }) hfetch, CellRef.read_pc, hread]
  · rw [memRead_ok hload, hread]

end Sys2Proof.Machine
end

section
/-! PROOFS. The family 30_encoding.md: the decoder's fields and the round trip (R302 to R312), and the words the
assembler emits for `movi` and `beq` (R332, R341). -/

namespace Sys2Proof

/-! ## The opcode map and the fields -/

/-- The sign-extended field as a number: the 17 low bits, less 2^17 when bit 16 is set (R305). -/
theorem toInt_i17Field (w : Word) :
    (i17Field w).toInt =
      if w.toNat % 2 ^ 17 < 2 ^ 16 then ((w.toNat % 2 ^ 17 : Nat) : Int) else (w.toNat % 2 ^ 17 : Nat) - 2 ^ 17 := by
  have hfield : (w.extractLsb' 0 17).toNat = w.toNat % 2 ^ 17 := by simp
  rw [i17Field_toInt, BitVec.toInt_eq_toNat_cond, hfield]
  split_ifs <;> omega

/-- Settles O3: the fields stated as numbers are the decoder's own fields, and there is one equation per opcode. -/
theorem opcodeMapDecodesFields : Obligations.OpcodeMapDecodesFields := by
  intro w rA rB rC i17 i22 hA hB hC h17 h22
  obtain rfl : rA = regField w 22 := Fin.ext (hA.trans (val_regField w 22).symm)
  obtain rfl : rB = regField w 17 := Fin.ext (hB.trans (val_regField w 17).symm)
  obtain rfl : rC = regField w 0 := Fin.ext (by rw [hC, val_regField, Nat.pow_zero, Nat.div_one])
  obtain rfl : i17 = i17Field w := BitVec.eq_of_toInt_eq (h17.trans (toInt_i17Field w).symm)
  obtain rfl : i22 = i22Field w := BitVec.eq_of_toNat_eq (h22.trans (toNat_i22Field w).symm)
  rw [← toNat_opField]
  exact ⟨decode_op0, decode_op1, decode_op2, decode_op3, decode_op4, decode_op5, decode_op6, decode_op7, decode_op8,
    decode_op9, decode_op10, fun hreserved => ⟨_, decode_reserved hreserved, rfl⟩⟩

/-! ## Encoding the fields of a word -/

/-- Bit `i` of a word, read from the register field that covers it. -/
theorem getLsbD_regField_sub (w : Word) {lo i : Nat} (hlo : lo ≤ i) (hi : i < lo + 5) :
    (BitVec.ofFin (w := 5) (regField w lo)).getLsbD (i - lo) = w.getLsbD i := by
  rw [getLsbD_regField w lo (by omega), Nat.add_sub_cancel' hlo]

/-- Bit `i` of a word, read from the opcode field that covers it. -/
theorem getLsbD_opField_sub (w : Word) {i : Nat} (hlo : 27 ≤ i) (hi : i < 32) :
    (opField w).getLsbD (i - 27) = w.getLsbD i := by
  rw [getLsbD_opField w (by omega), Nat.add_sub_cancel' hlo]

/-- A word in the RRI layout is made of its fields: the format uses every bit (R303). -/
theorem encodeRRI_fields {w : Word} {op : BitVec 5} (hop : (opField w).toNat = op.toNat) :
    encodeRRI op (regField w 22) (regField w 17) (i17Field w) = w := by
  obtain rfl := BitVec.eq_of_toNat_eq hop
  apply BitVec.eq_of_getLsbD_eq
  intro i hi
  rw [getLsbD_encodeRRI _ _ _ _ i hi]
  split_ifs with h17
  · exact getLsbD_i17Field w h17
  · exact getLsbD_regField_sub w (by omega) (by omega)
  · exact getLsbD_regField_sub w (by omega) (by omega)
  · exact getLsbD_opField_sub w (by omega) (by omega)

/-- A word in the RI layout is made of its fields: the format uses every bit (R304). -/
theorem encodeRI_fields {w : Word} {op : BitVec 5} (hop : (opField w).toNat = op.toNat) :
    encodeRI op (regField w 22) (i22Field w) = w := by
  obtain rfl := BitVec.eq_of_toNat_eq hop
  apply BitVec.eq_of_getLsbD_eq
  intro i hi
  rw [getLsbD_encodeRI _ _ _ i hi]
  split_ifs with h22
  · exact getLsbD_i22Field w h22
  · exact getLsbD_regField_sub w (by omega) (by omega)
  · exact getLsbD_opField_sub w (by omega) (by omega)

/-- A bit inside a field that is zero is clear. -/
theorem getLsbD_of_extractLsb'_zero {w : Word} {lo len i : Nat} (h : w.extractLsb' lo len = 0) (hlo : lo ≤ i)
    (hi : i < lo + len) : w.getLsbD i = false := by
  have hbit := BitVec.getLsbD_extractLsb' (start := lo) (len := len) (x := w) (i := i - lo)
  rw [h, decide_eq_true (by omega), Bool.true_and, Nat.add_sub_cancel' hlo] at hbit
  exact hbit.symm.trans BitVec.getLsbD_zero

/-- A word in the RRR layout is made of its fields once the 12 bits between rB and rC are zero (R302). -/
theorem encodeRRR_fields {w : Word} {op : BitVec 5} (hop : (opField w).toNat = op.toNat)
    (hunused : w.extractLsb' 5 12 = 0) : encodeRRR op (regField w 22) (regField w 17) (regField w 0) = w := by
  obtain rfl := BitVec.eq_of_toNat_eq hop
  apply BitVec.eq_of_getLsbD_eq
  intro i hi
  rw [getLsbD_encodeRRR _ _ _ _ i hi]
  split_ifs with h5
  · exact getLsbD_regField_sub w (lo := 0) (by omega) h5
  · exact (getLsbD_of_extractLsb'_zero hunused (by omega) (by omega)).symm
  · exact getLsbD_regField_sub w (by omega) (by omega)
  · exact getLsbD_regField_sub w (by omega) (by omega)
  · exact getLsbD_opField_sub w (by omega) (by omega)

/-- An RI word whose 27 low bits are zero has zero operands: the word of IRET (R337). -/
theorem encodeRI_zero {w : Word} {op : BitVec 5} (hop : (opField w).toNat = op.toNat)
    (hunused : w.extractLsb' 0 27 = 0) : encodeRI op 0 0 = w := by
  have hlow : w.toNat % 2 ^ 27 = 0 := by simpa using congrArg BitVec.toNat hunused
  have hA : regField w 22 = 0 := Fin.ext (by rw [val_regField]; show _ = 0; omega)
  have hi22 : i22Field w = 0 := BitVec.eq_of_toNat_eq (by rw [toNat_i22Field]; show _ = 0; omega)
  rw [← hA, ← hi22]
  exact encodeRI_fields hop

/-! ## Valid words -/

/-- What validity says per opcode (R312, C8): the unused bits of ADD and NAND, those of IRET, and no reserved opcode. -/
theorem validWord_cases {w : Word} (h : validWord w = true) :
    (opField w).toNat ≤ 10 ∧ ((opField w).toNat = 1 ∨ (opField w).toNat = 3 → w.extractLsb' 5 12 = 0) ∧
      ((opField w).toNat = 10 → w.extractLsb' 0 27 = 0) := by
  unfold validWord at h
  split at h
  case h_1 hop | h_2 hop => exact ⟨by omega, fun _ => beq_iff_eq.mp h, by omega⟩
  case h_3 hop => exact ⟨by omega, by omega, fun _ => beq_iff_eq.mp h⟩
  case h_4 h1 h3 h10 => exact ⟨of_decide_eq_true h, fun hop => (hop.elim h1 h3).elim, fun hop => (h10 hop).elim⟩

/-- Settles O2: the decoder keeps the fields its format uses, and a valid word has nothing outside them. -/
theorem encodeOfDecode : Obligations.EncodeOfDecode := by
  intro w hvalid
  obtain ⟨hle, hrrr, hiret⟩ := validWord_cases hvalid
  generalize hop : (opField w).toNat = k at hle hrrr hiret
  interval_cases k
  · exact ⟨_, decode_op0 hop, encodeRRI_fields hop⟩
  · exact ⟨_, decode_op1 hop, encodeRRR_fields hop (hrrr (.inl rfl))⟩
  · exact ⟨_, decode_op2 hop, encodeRRI_fields hop⟩
  · exact ⟨_, decode_op3 hop, encodeRRR_fields hop (hrrr (.inr rfl))⟩
  · exact ⟨_, decode_op4 hop, encodeRI_fields hop⟩
  · exact ⟨_, decode_op5 hop, encodeRRI_fields hop⟩
  · exact ⟨_, decode_op6 hop, encodeRRI_fields hop⟩
  · exact ⟨_, decode_op7 hop, encodeRRI_fields hop⟩
  · exact ⟨_, decode_op8 hop, encodeRI_fields hop⟩
  · exact ⟨_, decode_op9 hop, encodeRI_fields hop⟩
  · exact ⟨_, decode_op10 hop, encodeRI_zero hop (hiret rfl)⟩

/-! ## The words the assembler emits -/

/-- The word the assembler emits for ADDI decodes to it, for an immediate in the range of R306. -/
theorem decode_addi {rA rB : Reg} {i17 : Word} (h : i17InRange i17 = true) :
    decode (encodeRRI 2 rA rB i17) = .ok (.addi rA rB i17) := by
  obtain ⟨hop, hA, hB, hi17⟩ := splitFields_encodeRRI 2 rA rB i17
  rw [decode_op2 (congrArg BitVec.toNat hop), hA, hB, hi17, i17Field_of_inRange h]

/-- The word the assembler emits for BEQ decodes to it, for an offset in the range of R306. -/
theorem decode_beq {rA rB : Reg} {i17 : Word} (h : i17InRange i17 = true) :
    decode (encodeRRI 7 rA rB i17) = .ok (.beq rA rB i17) := by
  obtain ⟨hop, hA, hB, hi17⟩ := splitFields_encodeRRI 7 rA rB i17
  rw [decode_op7 (congrArg BitVec.toNat hop), hA, hB, hi17, i17Field_of_inRange h]

/-- The word the assembler emits for LUI decodes to it, for an immediate in the range of R307. -/
theorem decode_lui {rA : Reg} {i22 : Word} (h : i22InRange i22 = true) :
    decode (encodeRI 4 rA i22) = .ok (.lui rA i22) := by
  obtain ⟨hop, hA, hi22⟩ := splitFields_encodeRI 4 rA i22
  rw [decode_op4 (congrArg BitVec.toNat hop), hA, hi22, i22Field_of_inRange h]

/-- A signed 17-bit value is its own word read as signed. -/
theorem toInt_ofInt_of_signed17 {d : Int} (hlo : -65536 ≤ d) (hhi : d ≤ 65535) : (BitVec.ofInt 32 d).toInt = d := by
  rw [BitVec.toInt_ofInt, Int.bmod_eq_of_le] <;> omega

/-- The word of a signed 17-bit value lies in the range of R306. -/
theorem i17InRange_ofInt {d : Int} (hlo : -65536 ≤ d) (hhi : d ≤ 65535) : i17InRange (BitVec.ofInt 32 d) = true := by
  have hd := toInt_ofInt_of_signed17 hlo hhi
  rw [BitVec.toInt_eq_toNat_cond] at hd
  simp only [i17InRange, Bool.or_eq_true, decide_eq_true_eq]
  split at hd <;> omega

namespace Asm

/-- A BEQ's word is that of its offset, once the offset passes the check of its field (R332). -/
theorem emit_beq {labels : Labels} {line index : Nat} {rA rB : Reg} {imm : Imm} {target : Int}
    (h : resolve labels line imm = .ok target) :
    emit labels line index (.beq rA rB imm) =
      (signedField 17 line (target - (index + 1))).map fun f => [encodeRRI 7 rA rB f] := by
  rw [emit, h]
  rfl

/-- `movi` emits the two words of its operand, once the operand passes the check of 32 bits (R341). -/
theorem emit_movi {labels : Labels} {line index : Nat} {rA : Reg} {imm : Imm} {v : Int}
    (h : resolve labels line imm = .ok v) :
    emit labels line index (.movi rA imm) =
      (unsignedField 32 line v).map fun (x : Word) => [encodeRI 4 rA (x >>> 10), encodeRRI 2 rA rA (x &&& 0x3FF)] := by
  rw [emit, h]
  rfl

/-- Settles O59: the emitted field is the offset as a signed 17-bit number, which the decoder reads back. -/
theorem beqAssemblesItsTarget : Obligations.BeqAssemblesItsTarget := by
  intro labels line index rA rB imm target hresolve
  rw [emit_beq hresolve]
  refine ⟨fun hlo hhi => ?_, fun hout => ?_⟩
  · rw [signedField_eq (by omega)]
    refine ⟨_, _, rfl, decode_beq (i17InRange_ofInt hlo hhi), toInt_ofInt_of_signed17 hlo hhi, ?_⟩
    rw [← BitVec.ofInt_natCast, ← BitVec.ofInt_add]
    congr 1
    omega
  · rw [signedField_error (by omega)]
    rfl

end Asm

namespace Machine

/-! ## What `movi` loads -/

/-- The upper 22 bits of a word fit the field of LUI (R307). -/
theorem i22InRange_ushiftRight (v : Word) : i22InRange (v >>> 10) = true := by
  have hv := v.isLt
  rw [i22InRange, decide_eq_true_eq, BitVec.toNat_ushiftRight, Nat.shiftRight_eq_div_pow]
  omega

/-- The lower 10 bits of a word fit the field of ADDI, as a number that is not negative (R306). -/
theorem i17InRange_low10 (v : Word) : i17InRange (v &&& 0x3FF) = true := by
  simp only [i17InRange, Bool.or_eq_true, decide_eq_true_eq, toNat_and_low10]
  omega

/-- A word is its upper 22 bits in place plus its lower 10 bits: no carry passes between them (R341). -/
theorem upperImmediate_add_low10 (v : Word) : upperImmediate (v >>> 10) + (v &&& 0x3FF) = v := by
  have hv := v.isLt
  apply BitVec.eq_of_toNat_eq
  rw [upperImmediate, BitVec.toNat_add, BitVec.toNat_shiftLeft, BitVec.toNat_ushiftRight, toNat_and_low10,
    Nat.shiftRight_eq_div_pow, Nat.shiftLeft_eq]
  omega

/-- LUI sets its register to the upper immediate (R443). -/
theorem exec_lui (rA : Reg) (i22 : Word) (s : State) :
    exec (.lui rA i22) s = .next (s.setX rA (upperImmediate i22)) := rfl

/-- ADDI sets its register to the sum (R441). -/
theorem exec_addi (rA rB : Reg) (i17 : Word) (s : State) :
    exec (.addi rA rB i17) s = .next (s.setX rA (s.getX rB + i17)) := rfl

/-- Settles O58: LUI leaves the upper 22 bits and ADDI adds the lower 10; with rA = 0 the force clears both. -/
theorem moviLoadsItsOperand : Obligations.MoviLoadsItsOperand := by
  intro labels line index rA imm v s hresolve hlo hhi
  refine ⟨_, _, _, _, ?_, decode_lui (i22InRange_ushiftRight _), decode_addi (i17InRange_low10 _), exec_lui _ _ _,
    exec_addi _ _ _ _, ?_⟩
  · rw [Asm.emit_movi hresolve, Asm.unsignedField_eq ⟨hlo, hhi⟩]
    rfl
  · split_ifs with hzero
    · rw [hzero, State.forceX0_zero]
    · rw [State.forceX0_ne hzero, State.getX_setX_self, State.forceX0_ne hzero, State.getX_setX_self,
        upperImmediate_add_low10]

end Machine

end Sys2Proof
end

section
/-! PROOFS. The family 40_cycle.md: one step of the core (R400 to R406), the discard of results in x[0], and the
invariant of a run. -/

namespace Sys2Proof.Machine

/-! ## The invariant of a run -/

/-- A step keeps memory canonical: a SW writes one word, inside M (R213, R460). -/
theorem step_mem_wf {s u : State} (hwf : s.mem.wf = true) (h : step s = .next u) : u.mem.wf = true := by
  obtain hkeep | ⟨_, _, _, _, p, -, -, haccess, hwrite⟩ := step_mem_cases h
  · rw [hkeep, hwf]
  · rw [hwrite]
    exact Memory.wf_writeWord (access_ram_lt haccess) hwf

/-- LTR is unset or a time the host has reached (R117, D17): the clock clause of `State.Inv`. -/
def State.LtrReached (s : State) : Prop := ∀ l, s.ltr = some l → l ≤ s.hostNow

/-- `LtrReached` depends only on LTR and the host's time. -/
theorem State.LtrReached.congr {s t : State} (hs : s.LtrReached) (h : t.ltr = s.ltr ∧ t.hostNow = s.hostNow) :
    t.LtrReached := by
  obtain ⟨hltr, hnow⟩ := h
  intro l hl
  rw [hnow]
  exact hs l (hltr ▸ hl)

/-- A clock check that does not fire keeps LTR, or sets an unset one to the time it draws (R612). -/
theorem State.LtrReached.clockChecked {s : State} (hs : s.LtrReached) : s.clockChecked.LtrReached := by
  intro l hl
  rw [State.clockChecked_ltr, Option.some_inj] at hl
  rw [State.clockChecked_hostNow, ← hl]
  cases hltr : s.ltr with
  | none => exact Nat.le_refl s.now
  | some l₀ => exact (hs l₀ hltr).trans s.hostNow_le_now

/-- A clock check that fires sets LTR to the time it draws (R612). -/
theorem State.clockFired_ltrReached (s : State) : s.clockFired.LtrReached := by
  intro l hl
  rw [State.clockFired_ltr, Option.some_inj] at hl
  rw [State.clockFired_hostNow, hl]

theorem interrupt_clock {code : Word} {s t : State} (h : interrupt code s = .ok t) :
    t.ltr = s.ltr ∧ t.hostNow = s.hostNow :=
  ⟨(interrupt_entered h).devices.ltr, (interrupt_entered h).host.hostNow⟩

/-- No instruction sets LTR or draws the time: only the poll's clock check does (R612). -/
theorem exec_clock {i : Instr} {s t : State} (h : exec i s = .next t) : t.ltr = s.ltr ∧ t.hostNow = s.hostNow := by
  obtain ⟨rA, v, -, rfl⟩ | ⟨rA, rB, i17, -, -, rfl⟩ | ⟨i17, -, -, rfl⟩ | ⟨i17, -, -, trap⟩ |
    ⟨rA, rB, i17, c, -, -, rfl⟩ | ⟨rA, rB, i17, v, -, rfl⟩ | ⟨rA, i22, k, -, -, -, rfl⟩ | ⟨-, -, rfl⟩ := exec_cases h
  · exact ⟨State.setX_ltr s rA v, State.setX_hostNow s rA v⟩
  · exact ⟨linkAndJump_ltr rA rB s, linkAndJump_hostNow rA rB s⟩
  · exact ⟨rfl, rfl⟩
  · exact interrupt_clock trap
  · exact ⟨CellRef.write_ltr s _ c, CellRef.write_hostNow s _ c⟩
  · exact ⟨rfl, rfl⟩
  · exact ⟨State.setS_ltr s k _, State.setS_hostNow s k _⟩
  · exact ⟨returnFromInterrupt_ltr s, returnFromInterrupt_hostNow s⟩

theorem pollTty_clock {s t : State} (h : pollTty s = .ok t) : t.ltr = s.ltr ∧ t.hostNow = s.hostNow := by
  obtain ⟨-, rfl⟩ | ⟨-, -, rfl⟩ | ⟨-, -, entry⟩ := pollTty_cases h
  · exact ⟨rfl, rfl⟩
  · exact ⟨State.afterProbe_ltr s, State.afterProbe_hostNow s⟩
  · have hentry := interrupt_clock entry
    rwa [State.afterProbe_ltr, State.afterProbe_hostNow] at hentry

/-- The poll leaves LTR at a time the host has reached, whatever it delivers (R611 to R613). -/
theorem poll_ltrReached {s t : State} (hs : s.LtrReached) (h : poll s = .ok t) : t.LtrReached := by
  obtain ⟨-, rfl⟩ | ⟨-, -, tty⟩ | ⟨-, -, -, tty⟩ | ⟨-, -, -, entry⟩ := poll_cases h
  · exact hs
  · exact hs.congr (pollTty_clock tty)
  · exact hs.clockChecked.congr (pollTty_clock tty)
  · exact s.clockFired_ltrReached.congr (interrupt_clock entry)

theorem step_ltrReached {s u : State} (hs : s.LtrReached) (h : step s = .next u) : u.LtrReached := by
  obtain ⟨-, w, i, t, -, -, hexec, hboundary⟩ := step_cases h
  have hadvance : s.advancePc.LtrReached := hs.congr ⟨s.advancePc_ltr, s.advancePc_hostNow⟩
  have ht : t.LtrReached := hadvance.congr (exec_clock hexec)
  obtain ⟨-, rfl⟩ | ⟨-, hpoll⟩ := hboundary
  · exact ht
  · exact poll_ltrReached (ht.congr ⟨t.forceX0_ltr, t.forceX0_hostNow⟩) hpoll

/-- Settles O48: each clause of the invariant is kept on its own. -/
theorem stepKeepsInvariant : Obligations.StepKeepsInvariant := by
  intro s t ⟨hmem, hzero, hclock⟩ hstep
  exact ⟨step_mem_wf hmem hstep, x0IsZeroAfterEveryStep s t hzero hstep, step_ltrReached hclock hstep⟩

/-! ## Results in x[0] -/

/-- The force undoes a write to x[0] (R404). -/
@[simp] theorem State.forceX0_setX_zero (s : State) (v : Word) : (s.setX 0 v).forceX0 = s.forceX0 := by
  simp [State.forceX0, State.setX]

/-- A write to x[0] does not show in what the boundary does. -/
theorem boundary_setX_zero {a w v : Word} {s : State} (hrun : s.status = .running) :
    boundary a w (.next (s.setX 0 v)) = boundary a w (.next s) := by
  simp only [boundary, State.setX_status, hrun, State.forceX0_setX_zero]

/-- ADD sets its register to the sum (R440). -/
theorem exec_add (rA rB rC : Reg) (s : State) :
    exec (.add rA rB rC) s = .next (s.setX rA (s.getX rB + s.getX rC)) := rfl

/-- NAND sets its register to the not-and (R442). -/
theorem exec_nand (rA rB rC : Reg) (s : State) :
    exec (.nand rA rB rC) s = .next (s.setX rA (~~~(s.getX rB &&& s.getX rC))) := rfl

/-- LW sets its register to the value of the cell its access resolves to (R461). -/
theorem exec_lw_ok {rA rB : Reg} {i17 : Word} {s : State} {c : CellRef}
    (haccess : access s (s.getX rB + i17) .load = .ok c) : exec (.lw rA rB i17) s = .next (s.setX rA (c.read s)) := by
  simp only [exec, execLw, effectiveAddress, memRead_ok haccess]

/-- RSR in kernel mode sets its register to the status register its index names (R481). -/
theorem exec_rsr_ok {rA : Reg} {i22 : Word} {s : State} {k : Fin 4} (hkernel : s.userMode = false)
    (hk : i22.toNat = k.val) : exec (.rsr rA i22) s = .next (s.setX rA (s.getS k)) := by
  simp only [exec, execRsr, statusAccess_ok hkernel hk]

/-- JALR with a register other than x[0] links and jumps (R420). -/
theorem exec_jalr_link {rA rB : Reg} {i17 : Word} {s : State} (h : rA ≠ 0 ∨ rB ≠ 0) :
    exec (.jalr rA rB i17) s = .next (linkAndJump rA rB s) := if_pos h

/-- A link in x[0] leaves the target alone: it is a jump and a write to x[0] (R420). -/
theorem linkAndJump_zero {rB : Reg} {s : State} (h : rB ≠ 0) :
    linkAndJump 0 rB s = State.setX { s with pc := s.getX rB } 0 s.pc := by
  rw [linkAndJump, State.getX_setX_ne h]
  rfl

/-- Settles O12: each of the seven instructions writes x[0] and does nothing else, but for the jump's pc, and the force
undoes that write. -/
theorem resultsInX0AreDiscarded : Obligations.ResultsInX0AreDiscarded := by
  intro a w rB rC i17 i22 s hrun
  refine ⟨?_, ?_, ?_, ?_, fun c haccess => ?_, fun hkernel hindex => ?_, fun hjump => ?_⟩
  · rw [exec_add, boundary_setX_zero hrun]
  · rw [exec_addi, boundary_setX_zero hrun]
  · rw [exec_nand, boundary_setX_zero hrun]
  · rw [exec_lui, boundary_setX_zero hrun]
  · rw [exec_lw_ok haccess, boundary_setX_zero hrun]
  · rw [exec_rsr_ok (k := ⟨i22.toNat, hindex⟩) hkernel rfl, boundary_setX_zero hrun]
  · rw [exec_jalr_link (.inr hjump), linkAndJump_zero hjump]
    exact boundary_setX_zero hrun

/-! ## The step and its boundary -/

/-- Settles O44: with the run going on, the word fetched and the instruction decoded, no other branch of the step is
left. -/
theorem stepRunsTheDecodedInstruction : Obligations.StepRunsTheDecodedInstruction := by
  intro s w i hrun hfetch hdecode
  show step s = boundary s.pc w (exec i s.advancePc)
  simp only [step, hrun, hfetch, hdecode]

/-- Settles O45: the state that reaches the poll is the instruction's with x[0] forced. -/
theorem boundaryForcesX0AndPolls : Obligations.BoundaryForcesX0AndPolls := by
  intro a w t hrun
  obtain ⟨hregs, hpc, hmem, hsystem⟩ := onlyRegister_setX t 0 0
  exact ⟨t.forceX0, t.forceX0_zero, fun r hr => hregs r (by simpa using hr), hpc, hmem, hsystem,
    fun _ hpoll => boundary_poll_ok hrun hpoll, fun _ hpoll => boundary_poll_error hrun hpoll⟩

/-! ## The halt -/

/-- The halt form of JALR changes the run status and nothing else (R406, R420). -/
theorem exec_halt {i17 : Word} {s : State} (hmasked : s.interrupts = false) :
    exec (.jalr 0 0 i17) s = .next { s with status := .halted } := by
  simp [exec, execJalr, hmasked]

/-- No step runs after a halt (R400). -/
theorem step_halted {s : State} (h : s.status = .halted) : step s = .refused .runOver := by
  simp only [step, h]

/-- Settles O47: the boundary does nothing after a halt, so the step leaves the fetched state with its status changed. -/
theorem haltEndsTheRun : Obligations.HaltEndsTheRun := by
  intro s w i17 hrun hfetch hdecode hmasked
  have hstep : step s = .next { s.advancePc with status := .halted } := by
    rw [stepRunsTheDecodedInstruction s w _ hrun hfetch hdecode]
    show boundary s.pc w (exec (.jalr 0 0 i17) s.advancePc) = _
    rw [exec_halt (s := s.advancePc) hmasked, boundary_halted rfl]
  exact ⟨_, hstep, rfl, rfl, fun _ _ => rfl, fun _ => rfl, rfl, ⟨rfl, rfl, rfl⟩, ⟨rfl, rfl, rfl, rfl⟩,
    ⟨rfl, rfl, rfl, rfl, rfl⟩, step_halted rfl⟩

end Sys2Proof.Machine
end

section
/-! PROOFS. The family 41_control.md: JALR's three forms and BEQ (R420, R421), and the fault of a trap or poll whose
interrupt entry raises (R607). -/

namespace Sys2Proof.Machine

/-! ## An interrupt entry that raises -/

/-- Entry raises the cause that `EntryRaises` names (R607). -/
theorem interrupt_raises {code : Word} {s : State} {why : SegfaultCause} (h : EntryRaises code s why) :
    interrupt code s = .error (.segfault why) := by
  rw [interrupt_eq]
  cases why with
  | vectorBaseMisaligned => exact if_neg h
  | interruptStackMisaligned =>
    obtain ⟨hvector, hstack⟩ := h
    rw [if_pos hvector, if_neg hstack]
  | vectorOutOfRange =>
    obtain ⟨hvector, hstack, hrange⟩ := h
    rw [if_pos hvector, if_pos hstack, if_neg (Nat.not_lt.mpr hrange)]
  | pageTableBaseMisaligned | pageTableIndexOutOfRange | physicalOutOfRange => exact h.elim

/-- Which cause entry raises depends only on the code and on the bases S[2] and S[3]. -/
theorem EntryRaises.congr {code : Word} {s t : State} {why : SegfaultCause} (h : EntryRaises code s why)
    (hvector : t.s2 = s.s2) (hstack : t.s3 = s.s3) : EntryRaises code t why := by
  unfold EntryRaises at h ⊢
  rwa [hvector, hstack]

/-- JALR r0 r0 with Interrupts set is interrupt entry with code i17 (R420, R610). -/
theorem exec_trap {i17 : Word} {s : State} (hset : s.interrupts = true) :
    exec (.jalr 0 0 i17) s = outcomeIn s (interrupt i17 s) := by
  simp [exec, execJalr, hset]

/-- Once LTR is recorded, the clock is due when CF milliseconds have passed since (R612). -/
theorem State.clockDue_iff {s : State} {l : Nat} (hltr : s.ltr = some l) :
    s.clockDue = true ↔ s.cf.toNat * 1000000 ≤ s.now - l := by
  rw [State.clockDue, decide_eq_true_eq, hltr]
  rfl

/-- A poll with the clock due is the clock interrupt's entry, LTR updated (R612). -/
theorem poll_clockDue {s : State} (hset : s.interrupts = true) (hcf : s.cf ≠ 0) (hdue : s.clockDue = true) :
    poll s = interrupt irqClock s.clockFired := by
  rw [poll, if_pos hset, if_pos hcf, if_pos hdue]

/-- A poll with the clock disabled is the TTY check (R611). -/
theorem poll_clockOff {s : State} (hset : s.interrupts = true) (hcf : s.cf = 0) : poll s = pollTty s := by
  rw [poll, if_pos hset, if_neg (not_not.mpr hcf)]

/-- A TTY check that the device answers with Pending is the TTY interrupt's entry, the probe made (R613). -/
theorem pollTty_pending {s : State} (hattached : s.ttyAttached = true) (hpending : s.nextTtyReply.answer = .pending) :
    pollTty s = interrupt irqTty s.afterProbe := by
  simp only [pollTty, hattached, hpending, if_true]

/-- Settles O60: in each of the three places the outcome is that of an entry with the bases of `s`, so it raises what
entry raises. -/
theorem trapAndPollRaiseTheEntryFault : Obligations.TrapAndPollRaiseTheEntryFault := by
  intro s why hset
  refine ⟨fun i17 hentry => ?_, fun l hcf hltr hdue hentry => ?_, fun hattached hpending hentry => ?_⟩
  · rw [exec_trap hset, interrupt_raises hentry]
    rfl
  · rw [poll_clockDue hset hcf ((State.clockDue_iff hltr).mpr hdue)]
    exact interrupt_raises (hentry.congr s.clockFired_s2 s.clockFired_s3)
  · have htty : pollTty s = .error (.segfault why) := by
      rw [pollTty_pending hattached hpending]
      exact interrupt_raises (hentry.congr s.afterProbe_s2 s.afterProbe_s3)
    exact ⟨htty, fun hcf => (poll_clockOff hset hcf).trans htty⟩

/-! ## JALR and BEQ -/

/-- A change of general registers and of the pc leaves all the rest of the system as it was. -/
theorem sameSystem_of_regs_pc (s : State) (x : Vector Word 32) (pc : Word) :
    SameSystem s { s with x := x, pc := pc } :=
  ⟨rfl, ⟨rfl, rfl, rfl⟩, ⟨rfl, rfl, rfl, rfl⟩, ⟨rfl, rfl, rfl, rfl, rfl⟩, rfl⟩

/-- Settles O25: the link is written before x[rB] is read, so with rA = rB the jump goes to the link. -/
theorem jalrLinksAndJumps : Obligations.JalrLinksAndJumps := by
  intro rA rB i17 s hlink
  refine ⟨_, exec_jalr_link hlink, ?_, ?_, fun r hr => ?_, fun _ => rfl, sameSystem_of_regs_pc s _ _⟩
  · rw [linkAndJump_getX, if_pos rfl]
  · exact (linkAndJump_pc rA rB s).trans (if_congr eq_comm rfl rfl)
  · rw [linkAndJump_getX, if_neg (by simpa using hr)]

/-- Settles O26: the halt form changes the run status and no other field. -/
theorem jalrHaltsWithInterruptsOff : Obligations.JalrHaltsWithInterruptsOff := by
  intro i17 s hmasked
  exact ⟨_, exec_halt hmasked, rfl, fun _ _ => rfl, rfl, fun _ => rfl, rfl, ⟨rfl, rfl, rfl⟩, ⟨rfl, rfl, rfl, rfl⟩,
    ⟨rfl, rfl, rfl, rfl, rfl⟩⟩

/-- Settles O27: the trap form is interrupt entry, which a ready vector lets through. -/
theorem jalrTrapsWithInterruptsOn : Obligations.JalrTrapsWithInterruptsOn := by
  intro i17 s hset hready
  refine ⟨_, ?_, entered_enterKernel i17 s⟩
  rw [exec_trap hset, interrupt_ready hready]
  rfl

/-- BEQ sets the pc and nothing else: to the branch target, or to what it was (R421). -/
theorem exec_beq (rA rB : Reg) (i17 : Word) (s : State) :
    exec (.beq rA rB i17) s =
      .next { s with pc := if s.getX rA = s.getX rB then branchTarget s i17 else s.pc } := by
  simp only [exec, execBeq]
  split_ifs <;> rfl

/-- Settles O28: both outcomes of the comparison are a write to the pc. -/
theorem beqBranchesOnEquality : Obligations.BeqBranchesOnEquality := by
  intro rA rB i17 s
  refine ⟨_, exec_beq rA rB i17 s, fun heq => ?_, fun hne => if_neg hne, fun _ _ => rfl, fun _ => rfl,
    sameSystem_of_regs_pc s s.x _⟩
  rw [if_pos heq]
  exact BitVec.toNat_add s.pc i17

end Sys2Proof.Machine
end

section
/-! PROOFS. The family 42_integer.md: ADD, ADDI, NAND and LUI (R440 to R443). Each is one write to a general register, so
the frame of all four is that of `State.setX`, and what is left is the value written. -/

namespace Sys2Proof.Machine

/-- The upper immediate in numbers: 1024 times i22, modulo 2^32 (R443). -/
theorem toNat_upperImmediate (i22 : Word) : (upperImmediate i22).toNat = i22.toNat * 1024 % 2 ^ 32 := by
  rw [upperImmediate, BitVec.toNat_shiftLeft, Nat.shiftLeft_eq]

/-- For an i22 of 22 bits the shift loses nothing (R443). -/
theorem toNat_upperImmediate_of_inRange {i22 : Word} (h : i22InRange i22 = true) :
    (upperImmediate i22).toNat = i22.toNat * 1024 := by
  have hlt : i22.toNat < 2 ^ 22 := of_decide_eq_true h
  rw [toNat_upperImmediate, Nat.mod_eq_of_lt (by omega)]

/-- Settles O8: the register written holds the word sum, which wraps as the numbers do modulo 2^32. -/
theorem addWritesWrappedSum : Obligations.AddWritesWrappedSum := by
  intro rA rB rC s
  refine ⟨_, exec_add rA rB rC s, ?_, onlyRegister_setX s rA _⟩
  rw [State.getX_setX_self, BitVec.toNat_add]

/-- Settles O9: the register written holds the word sum, which on signed numbers is the balanced remainder. -/
theorem addiWritesWrappedSum : Obligations.AddiWritesWrappedSum := by
  intro rA rB i17 s
  refine ⟨_, exec_addi rA rB i17 s, ?_, onlyRegister_setX s rA _⟩
  rw [State.getX_setX_self, BitVec.toInt_add]

/-- Settles O10: the complement and the conjunction of words act on each of the 32 bits alone. -/
theorem nandWritesBitwiseNotAnd : Obligations.NandWritesBitwiseNotAnd := by
  intro rA rB rC s
  refine ⟨_, exec_nand rA rB rC s, fun k hk => ?_, onlyRegister_setX s rA _⟩
  rw [State.getX_setX_self, BitVec.getLsbD_not, BitVec.getLsbD_and, decide_eq_true hk, Bool.true_and]

/-- Settles O11: the register written holds the upper immediate. -/
theorem luiWritesUpperImmediate : Obligations.LuiWritesUpperImmediate := by
  intro rA i22 s
  refine ⟨_, exec_lui rA i22 s, ?_, fun hrange => ?_, onlyRegister_setX s rA _⟩
  · rw [State.getX_setX_self, toNat_upperImmediate]
  · rw [State.getX_setX_self, toNat_upperImmediate_of_inRange hrange]

end Sys2Proof.Machine
end

section
/-! PROOFS. The family 43_loadstore.md: LW and SW where the access resolves to a cell (R460, R461). SW is one write to
that cell, so its proofs are about what `CellRef.write` sets and leaves. -/

namespace Sys2Proof.Machine

/-! ## What a write to a cell sets and leaves (R218) -/

theorem CellRef.write_cf (s : State) (v : Word) (c : CellRef) :
    (c.write s v).cf = if c = .clock then v else s.cf := by
  cases c <;> rfl

theorem CellRef.write_tty_status (s : State) (v : Word) (c : CellRef) :
    (c.write s v).tty.status = if c = .ttyStatus then v else s.tty.status := by
  cases c <;> rfl

theorem CellRef.write_tty_inReg (s : State) (v : Word) (c : CellRef) :
    (c.write s v).tty.inReg = if c = .ttyIn then v else s.tty.inReg := by
  cases c <;> rfl

theorem CellRef.write_tty_outReg (s : State) (v : Word) (c : CellRef) :
    (c.write s v).tty.outReg = if c = .ttyOut then v else s.tty.outReg := by
  cases c <;> rfl

/-- A write to a device register leaves memory alone. -/
theorem CellRef.write_mem_of_ne_ram {c : CellRef} (s : State) (v : Word) (hdevice : ∀ p, c ≠ .ram p) :
    (c.write s v).mem = s.mem := by
  obtain hkeep | ⟨p, hram, -⟩ := CellRef.write_mem_cases s v c
  · exact hkeep
  · exact absurd hram (hdevice p)

theorem CellRef.write_sameRegs (s : State) (v : Word) (c : CellRef) : SameRegsExcept [] s (c.write s v) :=
  fun r _ => CellRef.write_getX s v c r

theorem CellRef.write_sameShadows (s : State) (v : Word) (c : CellRef) : SameShadows s (c.write s v) where
  ipc := CellRef.write_ipc s v c
  is0 := CellRef.write_is0 s v c
  isp := CellRef.write_isp s v c

theorem CellRef.write_sameHost (s : State) (v : Word) (c : CellRef) : SameHost s (c.write s v) where
  hostNow := CellRef.write_hostNow s v c
  nowSteps := CellRef.write_nowSteps s v c
  nowDraws := CellRef.write_nowDraws s v c
  ttyReplies := CellRef.write_ttyReplies s v c
  ttyProbes := CellRef.write_ttyProbes s v c

/-- A write to a word of M leaves everything outside memory as it was. -/
theorem CellRef.write_ram_sameSystem (s : State) (v : Word) (p : Nat) :
    SameSystem s (CellRef.write s v (.ram p)) where
  sr := rfl
  shadows := CellRef.write_sameShadows s v (.ram p)
  devices := ⟨rfl, rfl, rfl, rfl⟩
  host := CellRef.write_sameHost s v (.ram p)
  status := rfl

/-! ## LW and SW -/

/-- SW writes x[rA] to the cell its access resolves to (R460). -/
theorem exec_sw_ok {rA rB : Reg} {i17 : Word} {s : State} {c : CellRef}
    (haccess : access s (s.getX rB + i17) .store = .ok c) :
    exec (.sw rA rB i17) s = .next (c.write s (s.getX rA)) := by
  simp only [exec, execSw, effectiveAddress, memWrite_ok haccess, outcomeIn]

/-- Settles O14: the word an access resolves to lies inside M, where a word write to canonical memory is read back and
leaves the bytes of every other word. -/
theorem swStoresOneWord : Obligations.SwStoresOneWord := by
  intro rA rB i17 s p hwf haccess
  exact ⟨_, exec_sw_ok haccess, Memory.readWord_writeWord_self (access_ram_lt haccess) hwf,
    fun _ houtside => Memory.readByte_writeWord_outside houtside, CellRef.write_sameRegs s _ _, rfl,
    CellRef.write_ram_sameSystem s _ p⟩

/-- Settles O13: LW is one write to a general register, with that register's frame. -/
theorem lwLoadsTheAccessedCell : Obligations.LwLoadsTheAccessedCell := by
  intro rA rB i17 s c haccess
  exact ⟨_, exec_lw_ok haccess, State.getX_setX_self s rA _, onlyRegister_setX s rA _⟩

/-- Settles O15: each device register holds x[rA] exactly when it is the cell written, and memory is not that cell. -/
theorem swWritesDeviceRegister : Obligations.SwWritesDeviceRegister := by
  intro rA rB i17 s c haccess hdevice
  have hmem := CellRef.write_mem_of_ne_ram s (s.getX rA) hdevice
  exact ⟨_, exec_sw_ok haccess, CellRef.write_cf s _ c, CellRef.write_tty_status s _ c, CellRef.write_tty_inReg s _ c,
    CellRef.write_tty_outReg s _ c, fun a => congrArg (·.readByte a) hmem, CellRef.write_sameRegs s _ c,
    CellRef.write_pc s _ c, CellRef.write_sr s _ c, CellRef.write_sameShadows s _ c, CellRef.write_ltr s _ c,
    CellRef.write_ttyAttached s _ c, CellRef.write_sameHost s _ c, CellRef.write_status s _ c⟩

end Sys2Proof.Machine
end

section
/-! PROOFS. The family 44_system.md: WSR, RSR and IRET (R480 to R482), and IRET after an interrupt entry (R608). -/

namespace Sys2Proof.Machine

/-! ## IRET -/

/-- IRET in kernel mode is the return from interrupt (R482). -/
theorem exec_iret_kernel {s : State} (hkernel : s.userMode = false) : exec .iret s = .next (returnFromInterrupt s) := by
  simp [exec, execIret, hkernel]

/-- IRET in user mode raises NotPermitted (R482). -/
theorem exec_iret_user {s : State} (huser : s.userMode = true) :
    exec .iret s = .fault (.notPermitted .iretInUserMode (s.pc - 1) none) := by
  simp [exec, execIret, huser, raiseIn, Raise.toFault]

/-- Settles O36: entry saves the pc, x[29] and S[0] in the shadows, and IRET reads all three back from there. -/
theorem iretUndoesEntry : Obligations.IretUndoesEntry := by
  intro code s t u hentry hshadows hkernel
  have hentered : Entered code s t := interrupt_entered hentry
  refine ⟨_, exec_iret_kernel hkernel, ?_, ?_, ?_⟩
  · exact hshadows.ipc.trans hentered.ipc
  · calc (returnFromInterrupt u).getX stackReg
      _ = u.isp := returnFromInterrupt_stack u
      _ = t.isp := hshadows.isp
      _ = s.getX stackReg := hentered.isp
  · calc (returnFromInterrupt u).s0
      _ = u.is0 := returnFromInterrupt_s0 u
      _ = t.is0 := hshadows.is0
      _ = s.s0 := hentered.is0

/-- Settles O32: the return from interrupt reads the shadows and writes S[0], x[29] and the pc only. -/
theorem iretRestoresFromTheShadows : Obligations.IretRestoresFromTheShadows := by
  intro s
  refine ⟨fun hkernel => ?_, exec_iret_user⟩
  exact ⟨_, exec_iret_kernel hkernel, returnFromInterrupt_s0 s, returnFromInterrupt_stack s, rfl, ⟨rfl, rfl, rfl⟩,
    fun _ hk => returnFromInterrupt_getS hk, fun _ hr => returnFromInterrupt_getX (List.ne_of_not_mem_cons hr),
    fun _ => rfl, ⟨rfl, rfl, rfl, rfl⟩, ⟨rfl, rfl, rfl, rfl, rfl⟩, rfl⟩

/-! ## WSR and RSR -/

/-- WSR in kernel mode sets the status register its index names to x[rA] (R480). -/
theorem exec_wsr_ok {rA : Reg} {i22 : Word} {s : State} {k : Fin 4} (hkernel : s.userMode = false)
    (hk : i22.toNat = k.val) : exec (.wsr rA i22) s = .next (s.setS k (s.getX rA)) := by
  simp only [exec, execWsr, statusAccess_ok hkernel hk]

/-- Settles O29: WSR is one write to a status register, which leaves the other three and all else alone. -/
theorem wsrWritesTheStatusRegister : Obligations.WsrWritesTheStatusRegister := by
  intro rA i22 k s hkernel hk
  exact ⟨_, exec_wsr_ok hkernel hk, State.getS_setS_self s k _, fun _ hj => State.getS_setS_ne hj, fun _ _ => rfl, rfl,
    fun _ => rfl, ⟨rfl, rfl, rfl⟩, ⟨rfl, rfl, rfl, rfl⟩, ⟨rfl, rfl, rfl, rfl, rfl⟩, rfl⟩

/-- Settles O30: RSR is one write to a general register, with that register's frame. -/
theorem rsrReadsTheStatusRegister : Obligations.RsrReadsTheStatusRegister := by
  intro rA i22 k s hkernel hk
  exact ⟨_, exec_rsr_ok hkernel hk, State.getX_setX_self s rA _, onlyRegister_setX s rA _⟩

end Sys2Proof.Machine
end

section
/-! PROOFS. The family 60_exceptions.md: interrupt entry (R605 to R609), the poll (R611 to R613), the TTY's protocol
(R626), the fault record (R602), and how a step moves between user mode and the kernel (R617, R621, R622). -/

namespace Sys2Proof.Machine

/-! ## Interrupt entry (R605 to R609) -/

/-- The number of a vector is below 16, whatever the code (R606). -/
theorem vectorCode_lt (code : Word) : vectorCode code < 16 := by
  unfold vectorCode
  split_ifs <;> omega

/-- The code matters to entry only through the number of its vector. -/
theorem interrupt_congr {code code' : Word} (h : vectorCode code = vectorCode code') (s : State) :
    interrupt code s = interrupt code' s := by
  rw [interrupt_eq, interrupt_eq, h]

/-- Whether entry is ready depends only on the code and on the bases S[2] and S[3]. -/
theorem EntryReady.congr {code : Word} {s t : State} (h : EntryReady code s) (hvector : t.s2 = s.s2)
    (hstack : t.s3 = s.s3) : EntryReady code t where
  vectorBase := hvector ▸ h.vectorBase
  stackBase := hstack ▸ h.stackBase
  vectorInRange := hvector ▸ h.vectorInRange

/-- Settles O33: with all three checks passed, entry gives the state that `Entered` describes. -/
theorem entrySavesAndSwitches : Obligations.EntrySavesAndSwitches :=
  fun code s hready => ⟨_, interrupt_ready hready, entered_enterKernel code s⟩

/-- Settles O34: the three conditions are those of `EntryRaises`, one for each cause of entry. -/
theorem entryFaultsInOrder : Obligations.EntryFaultsInOrder := by
  intro code s
  exact ⟨fun hvector => interrupt_raises (why := .vectorBaseMisaligned) hvector,
    fun hvector hstack => interrupt_raises (why := .interruptStackMisaligned) ⟨hvector, hstack⟩,
    fun hvector hstack hrange => interrupt_raises (why := .vectorOutOfRange) ⟨hvector, hstack, hrange⟩⟩

/-- Settles O35: a code of 16 or more has the vector of code 0, and a negative code is 2^31 or more unsigned. -/
theorem largeCodesAreCodeZero : Obligations.LargeCodesAreCodeZero := by
  intro code s
  have hlarge (h : 16 ≤ code.toNat) : interrupt code s = interrupt 0 s := by
    have hvector : vectorCode code = vectorCode 0 := if_neg (Nat.not_lt.mpr h)
    exact interrupt_congr hvector s
  refine ⟨hlarge, fun hneg => hlarge ?_⟩
  have hhigh : 2 ^ 32 ≤ 2 * code.toNat := BitVec.toInt_neg_iff.mp hneg
  omega

/-! ## The clock check and the TTY check (R611 to R613) -/

theorem SameShadows.trans {s r t : State} (h : SameShadows s r) (h' : SameShadows r t) : SameShadows s t :=
  ⟨h'.ipc.trans h.ipc, h'.is0.trans h.is0, h'.isp.trans h.isp⟩

theorem SameCore.refl (s : State) : SameCore s s :=
  ⟨fun _ _ => rfl, rfl, rfl, ⟨rfl, rfl, rfl⟩, rfl, rfl, rfl, rfl⟩

theorem SameCore.trans {s r t : State} (h : SameCore s r) (h' : SameCore r t) : SameCore s t where
  regs := fun i hi => (h'.regs i hi).trans (h.regs i hi)
  pc := h'.pc.trans h.pc
  sr := h'.sr.trans h.sr
  shadows := h.shadows.trans h'.shadows
  cf := h'.cf.trans h.cf
  ttyAttached := h'.ttyAttached.trans h.ttyAttached
  memory := h'.memory.trans h.memory
  status := h'.status.trans h.status

theorem sameCore_clockChecked (s : State) : SameCore s s.clockChecked :=
  ⟨fun _ _ => rfl, rfl, rfl, ⟨rfl, rfl, rfl⟩, rfl, rfl, rfl, rfl⟩

theorem sameCore_clockFired (s : State) : SameCore s s.clockFired :=
  ⟨fun _ _ => rfl, rfl, rfl, ⟨rfl, rfl, rfl⟩, rfl, rfl, rfl, rfl⟩

theorem sameCore_afterProbe (s : State) : SameCore s s.afterProbe :=
  ⟨fun _ _ => rfl, rfl, rfl, ⟨rfl, rfl, rfl⟩, rfl, rfl, rfl, rfl⟩

/-- With LTR unset the elapsed time is 0, which no CF but 0 makes due (R612, D18). -/
theorem State.clockDue_of_ltr_none {s : State} (hcf : s.cf ≠ 0) (hltr : s.ltr = none) : s.clockDue = false := by
  have hpos : 0 < s.cf.toNat := Nat.pos_of_ne_zero fun h => hcf (BitVec.eq_of_toNat_eq h)
  rw [State.clockDue, decide_eq_false_iff_not, hltr, Option.getD_none, Nat.sub_self, clockPeriod]
  omega

/-- A poll whose clock is not due is the TTY check on the state the clock check leaves (R612, R613). -/
theorem poll_clockNotDue {s : State} (hset : s.interrupts = true) (hcf : s.cf ≠ 0) (hdue : s.clockDue = false) :
    poll s = pollTty s.clockChecked := by
  rw [poll, if_pos hset, if_pos hcf, if_neg (Bool.eq_false_iff.mp hdue)]

/-- Settles O37: `Interrupts` is the poll's outermost condition. -/
theorem pollIsMaskedByInterrupts : Obligations.PollIsMaskedByInterrupts := fun _ hmasked => poll_masked hmasked

/-- Settles O38: with the clock due the poll is the entry with vector 1 of the state whose LTR is the time drawn, so
each clause about the result is one of `Entered` or a field that the clock check leaves. -/
theorem clockInterruptFires : Obligations.ClockInterruptFires := by
  intro s l hset hcf hltr hdue hready
  have hpoll := poll_clockDue hset hcf ((State.clockDue_iff hltr).mpr hdue)
  have hentry := interrupt_ready (hready.congr s.clockFired_s2 s.clockFired_s3)
  have hentered := interrupt_entered hentry
  exact ⟨sameCore_clockFired s, rfl, rfl, rfl, rfl, rfl, _, hpoll.trans hentry, hentered, hentered.devices.ltr,
    hentered.pc, hentered.ipc, hentered.is0, hentered.isp, hentered.stack, hentered.kernel, hentered.unpaged,
    hentered.masked, hentered.host.hostNow, hentered.devices.tty, hentered.host.ttyProbes, hentered.memory⟩

/-- Settles O39: the elapsed time is below the period, so the check only draws the time. -/
theorem clockNotDueGoesOnToTheTty : Obligations.ClockNotDueGoesOnToTheTty := by
  intro s l hset hcf hltr helapsed
  have hdue : s.clockDue = false :=
    Bool.eq_false_iff.mpr fun h => Nat.not_le.mpr helapsed ((State.clockDue_iff hltr).mp h)
  have hkeep : s.clockChecked.ltr = some l := by rw [State.clockChecked_ltr, hltr, Option.getD_some]
  exact ⟨poll_clockNotDue hset hcf hdue, sameCore_clockChecked s, hkeep, rfl, rfl, rfl, rfl⟩

/-- Settles O40: an unset LTR is never due, and the check sets it to the time drawn. -/
theorem firstClockCheckNeverFires : Obligations.FirstClockCheckNeverFires := by
  intro s hset hcf hltr
  have hrecord : s.clockChecked.ltr = some s.now := by rw [State.clockChecked_ltr, hltr, Option.getD_none]
  exact ⟨poll_clockNotDue hset hcf (State.clockDue_of_ltr_none hcf hltr), sameCore_clockChecked s, hrecord,
    rfl, rfl, rfl, rfl⟩

/-- A TTY check with no TTY does nothing (R613). -/
theorem pollTty_detached {s : State} (hdetached : s.ttyAttached = false) : pollTty s = .ok s := by
  simp only [pollTty, hdetached, Bool.false_eq_true, if_false]

/-- A TTY check that the device answers with NotPending makes the probe and goes on (R613). -/
theorem pollTty_notPending {s : State} (hattached : s.ttyAttached = true)
    (hanswer : s.nextTtyReply.answer = .notPending) : pollTty s = .ok s.afterProbe := by
  simp only [pollTty, hattached, hanswer, if_true]

/-- A TTY check that the device answers with Error raises DeviceError (R613, F12). -/
theorem pollTty_error {s : State} (hattached : s.ttyAttached = true) (hanswer : s.nextTtyReply.answer = .error) :
    pollTty s = .error .deviceError := by
  simp only [pollTty, hattached, hanswer, if_true]

/-- Settles O41: one lemma for each answer of the probe, and the probe leaves all but the TTY's registers. -/
theorem ttyCheckFollowsTheProbe : Obligations.TtyCheckFollowsTheProbe := by
  intro s
  refine ⟨pollTty_detached, pollTty_notPending, pollTty_error, fun hattached hpending hready => ?_,
    ⟨sameCore_afterProbe s, rfl, rfl, rfl, rfl⟩, poll_clockOff⟩
  rw [pollTty_pending hattached hpending]
  exact entrySavesAndSwitches irqTty s.afterProbe (hready.congr s.afterProbe_s2 s.afterProbe_s3)

/-! ## The TTY's registers after a probe (R626) -/

/-- TTYIn after a probe is set when it was set or the reply sets it. -/
theorem probedRegs_ttyIn (old new : TtyRegs) :
    (probedRegs old new).status.getLsbD 0 = (old.status.getLsbD 0 || new.status.getLsbD 0) := by
  rw [getLsbD_probedRegs_status old new (by decide), if_pos rfl]

/-- TTYOut after a probe is set when it was set and the reply keeps it. -/
theorem probedRegs_ttyOut (old new : TtyRegs) :
    (probedRegs old new).status.getLsbD 1 = (old.status.getLsbD 1 && new.status.getLsbD 1) := by
  rw [getLsbD_probedRegs_status old new (by decide), if_neg (by decide), if_pos rfl]

/-- A probe leaves the other bits of the status register. -/
theorem probedRegs_statusHigh (old new : TtyRegs) {k : Nat} (hk : 2 ≤ k) :
    (probedRegs old new).status.getLsbD k = old.status.getLsbD k := by
  by_cases hlt : k < 32
  · rw [getLsbD_probedRegs_status old new hlt, if_neg (by omega), if_neg (by omega)]
  · rw [BitVec.getLsbD_of_ge _ k (by omega), BitVec.getLsbD_of_ge _ k (by omega)]

/-- A probe that sets TTYIn puts the low byte of the reply in the input register. -/
theorem probedRegs_inReg_byte {old new : TtyRegs} (hold : old.status.getLsbD 0 = false)
    (hnew : new.status.getLsbD 0 = true) : (probedRegs old new).inReg.toNat = new.inReg.toNat % 256 := by
  have hin : (probedRegs old new).inReg = new.inReg &&& 0xFF := by
    simp only [probedRegs, ttyInBit, hold, hnew, Bool.not_false, Bool.and_self, if_true]
  rw [hin, BitVec.toNat_and]
  exact Nat.and_two_pow_sub_one_eq_mod new.inReg.toNat 8

/-- A probe that does not set TTYIn puts the reply's word in the input register. -/
theorem probedRegs_inReg_word {old new : TtyRegs}
    (h : old.status.getLsbD 0 = true ∨ new.status.getLsbD 0 = false) : (probedRegs old new).inReg = new.inReg := by
  have hnot : (!ttyInBit old.status && ttyInBit new.status) = false := by
    obtain hold | hnew := h
    · rw [ttyInBit, hold, Bool.not_true, Bool.false_and]
    · rw [ttyInBit, ttyInBit, hnew, Bool.and_false]
  exact if_neg (Bool.eq_false_iff.mp hnot)

/-- Settles O42: the clauses on what the device never does follow from the exact value of each register. -/
theorem ttyProbeKeepsTheProtocol : Obligations.TtyProbeKeepsTheProtocol := by
  intro s
  have hin := probedRegs_ttyIn s.tty s.nextTtyReply.regs
  have hout := probedRegs_ttyOut s.tty s.nextTtyReply.regs
  refine ⟨fun hclear => ?_, fun hset => ?_, fun k hk => probedRegs_statusHigh _ _ hk, fun hclear hset => ?_, hin, hout,
    probedRegs_inReg_byte, probedRegs_inReg_word, rfl⟩
  · exact hout.trans (by rw [hclear, Bool.false_and])
  · exact hin.trans (by rw [hset, Bool.true_or])
  · have hasked : s.nextTtyReply.regs.status.getLsbD 0 = true := by
      rwa [State.afterProbe_tty, hin, hclear, Bool.false_or] at hset
    rw [State.afterProbe_tty, probedRegs_inReg_byte hclear hasked]
    exact Nat.mod_lt _ (by decide)

/-! ## Privileged instructions that raise (R480 to R482, R621) -/

theorem statusAccess_user {i22 : Word} {s : State} (huser : s.userMode = true) :
    statusAccess i22 s = .error (.notPermitted .statusRegisterInUserMode) := if_pos huser

theorem statusAccess_badIndex {i22 : Word} {s : State} (hkernel : s.userMode = false) (hindex : 4 ≤ i22.toNat) :
    statusAccess i22 s = .error (.notPermitted .badStatusIndex) := by
  have hnone : statusIndex i22 = none := dif_neg (Nat.not_lt.mpr hindex)
  simp only [statusAccess, hkernel, hnone, Bool.false_eq_true, if_false]

/-- WSR and RSR raise what their access to the status register raises, at the instruction's address. -/
theorem exec_wsr_rsr_error {i22 : Word} {s : State} {r : Raise} (h : statusAccess i22 s = .error r) (rA : Reg) :
    exec (.wsr rA i22) s = .fault (r.toFault (s.pc - 1) none) ∧
    exec (.rsr rA i22) s = .fault (r.toFault (s.pc - 1) none) := by
  simp only [exec, execWsr, execRsr, h, raiseIn, and_self]

/-- Settles O31: WSR and RSR share the check of `statusAccess`, and IRET has its own. -/
theorem privilegedInstructionsNotPermitted : Obligations.PrivilegedInstructionsNotPermitted := by
  intro rA i22 s
  refine ⟨fun huser => ?_, fun hkernel hindex => exec_wsr_rsr_error (statusAccess_badIndex hkernel hindex) rA⟩
  obtain ⟨hwsr, hrsr⟩ := exec_wsr_rsr_error (i22 := i22) (statusAccess_user huser) rA
  exact ⟨hwsr, hrsr, exec_iret_user huser⟩

/-! ## The fault record (R602) -/

/-- A fetch that raises stops the step with the pc it started from and no word (R401). -/
theorem step_fetch_error {s : State} {r : Raise} (hrun : s.status = .running) (hfetch : fetch s = .error r) :
    step s = .fault (r.toFault s.pc none) := by
  simp only [step, hrun, hfetch]

/-- The boundary adds the fetched word to the record of an instruction's fault. -/
theorem boundary_fault (a w : Word) (r : Raise) :
    boundary a w (.fault (r.toFault a none)) = .fault (r.toFault a (some w)) := by
  cases r <;> rfl

/-- Settles O46: fetch is the access with R and X, and a fault of the instruction passes through the boundary. -/
theorem faultsCarryAddressAndWord : Obligations.FaultsCarryAddressAndWord := by
  refine ⟨fun s c haccess => fetch_ok haccess, fun s r hrun haccess => ?_, fun s r => step_fetch_error,
    fun s w i r hrun hfetch hdecode hexec => ?_⟩
  · have hfetch := fetch_error haccess
    exact ⟨hfetch, step_fetch_error hrun hfetch⟩
  · rw [stepRunsTheDecodedInstruction s w i hrun hfetch hdecode, hexec, BitVec.add_sub_cancel]
    exact boundary_fault s.pc w r

/-! ## A poll, whatever it delivers (R611 to R613) -/

/-- A TTY check that goes on leaves the core and the time as they were, but that it may then enter the kernel. -/
theorem pollTty_core_cases {s t : State} (h : pollTty s = .ok t) :
    ∃ r, SameCore s r ∧ r.hostNow = s.hostNow ∧ (t = r ∨ ∃ code, Entered code r t) := by
  obtain ⟨-, rfl⟩ | ⟨-, -, rfl⟩ | ⟨-, -, entry⟩ := pollTty_cases h
  · exact ⟨_, SameCore.refl _, rfl, .inl rfl⟩
  · exact ⟨_, sameCore_afterProbe s, rfl, .inl rfl⟩
  · exact ⟨_, sameCore_afterProbe s, rfl, .inr ⟨irqTty, interrupt_entered entry⟩⟩

/-- A poll that goes on leaves the core as it was and the time no earlier, but that it may then enter the kernel. -/
theorem poll_core_cases {s t : State} (h : poll s = .ok t) :
    ∃ r, SameCore s r ∧ s.hostNow ≤ r.hostNow ∧ (t = r ∨ ∃ code, Entered code r t) := by
  obtain ⟨-, rfl⟩ | ⟨-, -, tty⟩ | ⟨-, -, -, tty⟩ | ⟨-, -, -, entry⟩ := poll_cases h
  · exact ⟨_, SameCore.refl _, Nat.le_refl _, .inl rfl⟩
  · obtain ⟨r, hcore, hnow, hend⟩ := pollTty_core_cases tty
    exact ⟨r, hcore, hnow.ge, hend⟩
  · obtain ⟨r, hcore, hnow, hend⟩ := pollTty_core_cases tty
    exact ⟨r, (sameCore_clockChecked s).trans hcore, s.hostNow_le_now.trans hnow.ge, hend⟩
  · exact ⟨_, sameCore_clockFired s, s.hostNow_le_now, .inr ⟨irqClock, interrupt_entered entry⟩⟩

/-! ## The host's time and the TTY's presence (D17, R630) -/

/-- No instruction attaches or detaches the TTY (R630). -/
theorem exec_ttyAttached {i : Instr} {s t : State} (h : exec i s = .next t) : t.ttyAttached = s.ttyAttached := by
  obtain ⟨rA, v, -, rfl⟩ | ⟨rA, rB, i17, -, -, rfl⟩ | ⟨i17, -, -, rfl⟩ | ⟨i17, -, -, trap⟩ |
    ⟨rA, rB, i17, c, -, -, rfl⟩ | ⟨rA, rB, i17, v, -, rfl⟩ | ⟨rA, i22, k, -, -, -, rfl⟩ | ⟨-, -, rfl⟩ := exec_cases h
  · exact State.setX_ttyAttached s rA v
  · rfl
  · rfl
  · exact (interrupt_entered trap).devices.ttyAttached
  · exact CellRef.write_ttyAttached s _ c
  · rfl
  · exact State.setS_ttyAttached s k _
  · exact returnFromInterrupt_ttyAttached s

theorem poll_host {s t : State} (h : poll s = .ok t) : s.hostNow ≤ t.hostNow ∧ t.ttyAttached = s.ttyAttached := by
  obtain ⟨r, hcore, hnow, rfl | ⟨code, hentered⟩⟩ := poll_core_cases h
  · exact ⟨hnow, hcore.ttyAttached⟩
  · exact ⟨hnow.trans hentered.host.hostNow.ge, hentered.devices.ttyAttached.trans hcore.ttyAttached⟩

/-- Settles O55: an instruction moves neither, and the poll can only draw a later time. -/
theorem timeAdvancesAndTtyStays : Obligations.TimeAdvancesAndTtyStays := by
  intro s u hstep
  obtain ⟨-, w, i, t, -, -, hexec, hboundary⟩ := step_cases hstep
  have hnow : t.hostNow = s.hostNow := (exec_clock hexec).2
  have htty : t.ttyAttached = s.ttyAttached := exec_ttyAttached (s := s.advancePc) hexec
  obtain ⟨-, rfl⟩ | ⟨-, hpoll⟩ := hboundary
  · exact ⟨hnow.ge, htty⟩
  · obtain ⟨hlater, hkeep⟩ := poll_host hpoll
    exact ⟨hnow.ge.trans hlater, hkeep.trans htty⟩

/-! ## Between user mode and the kernel (R617, R621, R622) -/

/-- The status registers and the shadows are unchanged. -/
structure SamePrivilege (s t : State) : Prop where
  sr : t.sr = s.sr
  shadows : SameShadows s t

/-- `t` is in kernel mode, unpaged and masked, at a word of the vector table, with S[0] of `s` in IS0 and S[3] in
x[29]: what R621 and R622 say of an entry. It speaks of `s` only through S[0] to S[3]. -/
structure AtVectorFrom (s t : State) : Prop where
  kernel : t.userMode = false
  unpaged : t.paging = false
  masked : t.interrupts = false
  is0 : t.is0 = s.s0
  s1 : t.s1 = s.s1
  s2 : t.s2 = s.s2
  s3 : t.s3 = s.s3
  stack : t.getX stackReg = s.s3
  pc : ∃ k, k < 16 ∧ t.pc = t.mem.readWord (s.s2.toNat + k)

theorem SamePrivilege.trans {s r t : State} (h : SamePrivilege s r) (h' : SamePrivilege r t) : SamePrivilege s t where
  sr := h'.sr.trans h.sr
  shadows := h.shadows.trans h'.shadows

theorem SameCore.samePrivilege {s t : State} (h : SameCore s t) : SamePrivilege s t := ⟨h.sr, h.shadows⟩

theorem samePrivilege_advancePc (s : State) : SamePrivilege s s.advancePc := ⟨rfl, ⟨rfl, rfl, rfl⟩⟩

theorem samePrivilege_forceX0 (s : State) : SamePrivilege s s.forceX0 := ⟨rfl, ⟨rfl, rfl, rfl⟩⟩

theorem userMode_congr {s t : State} (h : t.sr = s.sr) : t.userMode = s.userMode := by
  simp only [State.userMode, State.s0, h]

/-- Interrupt entry goes to a vector (R605). -/
theorem Entered.atVectorFrom {code : Word} {s t : State} (h : Entered code s t) : AtVectorFrom s t := by
  obtain ⟨hs1, hs2, hs3⟩ := h.bases
  have hpc : t.pc = t.mem.readWord (s.s2.toNat + vectorCode code) := by rw [h.memory, h.pc]
  exact ⟨h.kernel, h.unpaged, h.masked, h.is0, hs1, hs2, hs3, h.stack, vectorCode code, vectorCode_lt code, hpc⟩

theorem AtVectorFrom.congr {s r t : State} (h : AtVectorFrom r t) (hsr : r.sr = s.sr) : AtVectorFrom s t where
  kernel := h.kernel
  unpaged := h.unpaged
  masked := h.masked
  is0 := h.is0.trans (congrArg (·[0]) hsr)
  s1 := h.s1.trans (congrArg (·[1]) hsr)
  s2 := h.s2.trans (congrArg (·[2]) hsr)
  s3 := h.s3.trans (congrArg (·[3]) hsr)
  stack := h.stack.trans (congrArg (·[3]) hsr)
  pc := by
    have hs2 : r.s2 = s.s2 := congrArg (·[2]) hsr
    rw [← hs2]
    exact h.pc

/-- Forcing x[0] leaves a state at a vector there: x[29] is another register. -/
theorem AtVectorFrom.forceX0 {s t : State} (h : AtVectorFrom s t) : AtVectorFrom s t.forceX0 where
  kernel := h.kernel
  unpaged := h.unpaged
  masked := h.masked
  is0 := h.is0
  s1 := h.s1
  s2 := h.s2
  s3 := h.s3
  stack := (State.forceX0_ne (by decide)).trans h.stack
  pc := h.pc

/-- A poll that goes on keeps the privileged state, or goes to a vector (R611). -/
theorem poll_privilege_cases {s t : State} (h : poll s = .ok t) : SamePrivilege s t ∨ AtVectorFrom s t := by
  obtain ⟨r, hcore, -, rfl | ⟨code, hentered⟩⟩ := poll_core_cases h
  · exact .inl hcore.samePrivilege
  · exact .inr (hentered.atVectorFrom.congr hcore.sr)

/-- An instruction keeps the privileged state or goes to a vector, but for WSR and IRET in kernel mode (R621). -/
theorem exec_privilege_cases {i : Instr} {s t : State} (h : exec i s = .next t) :
    SamePrivilege s t ∨ AtVectorFrom s t ∨
    (∃ rA i22 k, i = .wsr rA i22 ∧ s.userMode = false ∧ i22.toNat = k.val ∧ t = s.setS k (s.getX rA)) ∨
    (i = .iret ∧ s.userMode = false ∧ t = returnFromInterrupt s) := by
  obtain ⟨rA, v, -, rfl⟩ | ⟨rA, rB, i17, -, -, rfl⟩ | ⟨i17, -, -, rfl⟩ | ⟨i17, -, -, trap⟩ |
    ⟨rA, rB, i17, c, -, -, rfl⟩ | ⟨rA, rB, i17, v, -, rfl⟩ | wsr | iret := exec_cases h
  · exact .inl ⟨rfl, ⟨rfl, rfl, rfl⟩⟩
  · exact .inl ⟨rfl, ⟨rfl, rfl, rfl⟩⟩
  · exact .inl ⟨rfl, ⟨rfl, rfl, rfl⟩⟩
  · exact .inr (.inl (interrupt_entered trap).atVectorFrom)
  · exact .inl ⟨CellRef.write_sr s _ c, CellRef.write_sameShadows s _ c⟩
  · exact .inl ⟨rfl, ⟨rfl, rfl, rfl⟩⟩
  · exact .inr (.inr (.inl wsr))
  · exact .inr (.inr (.inr iret))

/-- In user mode WSR and IRET give no next state, so an instruction keeps the privileged state or goes to a vector. -/
theorem exec_user_cases {i : Instr} {s t : State} (huser : s.userMode = true) (h : exec i s = .next t) :
    SamePrivilege s t ∨ AtVectorFrom s t := by
  obtain hkeep | hvector | ⟨_, _, _, -, hkernel, -, -⟩ | ⟨-, hkernel, -⟩ := exec_privilege_cases h
  · exact .inl hkeep
  · exact .inr hvector
  · cases huser.symm.trans hkernel
  · cases huser.symm.trans hkernel

/-- Settles O51: an instruction of user mode keeps the privileged state, and then the poll decides, or it traps, and
then the poll is masked. -/
theorem userModeLeavesOnlyThroughTheVectors : Obligations.UserModeLeavesOnlyThroughTheVectors := by
  intro s u huser hstep
  suffices hcases : SamePrivilege s u ∨ AtVectorFrom s u from
    hcases.imp (fun h => ⟨h.sr, h.shadows⟩)
      fun h => ⟨h.kernel, h.unpaged, h.masked, h.is0, h.s1, h.s2, h.s3, h.stack, h.pc⟩
  obtain ⟨-, w, i, t, -, -, hexec, hboundary⟩ := step_cases hstep
  have ht : SamePrivilege s t ∨ AtVectorFrom s t :=
    (exec_user_cases (s := s.advancePc) huser hexec).imp (samePrivilege_advancePc s).trans fun h => h.congr rfl
  obtain ⟨-, rfl⟩ | ⟨-, hpoll⟩ := hboundary
  · exact ht
  obtain hkeep | hvector := ht
  · have hforced : SamePrivilege s t.forceX0 := hkeep.trans (samePrivilege_forceX0 t)
    exact (poll_privilege_cases hpoll).imp hforced.trans fun h => h.congr hforced.sr
  · rw [poll_masked hvector.forceX0.masked] at hpoll
    injection hpoll with hpoll
    exact .inr (hpoll ▸ hvector.forceX0)

/-- A boundary in user mode was reached in user mode: the poll enters the kernel or leaves the mode (R622). -/
theorem userMode_of_poll_forceX0 {t u : State} (hpoll : poll t.forceX0 = .ok u) (huser : u.userMode = true) :
    t.userMode = true := by
  obtain hkeep | hvector := poll_privilege_cases hpoll
  · rwa [← t.forceX0_userMode, ← userMode_congr hkeep.sr]
  · cases huser.symm.trans hvector.kernel

/-- A write to a status register turns kernel mode into user mode only if it sets bit 0 of S[0]. -/
theorem userMode_setS {s : State} {k : Fin 4} {v : Word} (hkernel : s.userMode = false)
    (huser : (s.setS k v).userMode = true) : k = 0 ∧ v.getLsbD 0 = true := by
  rw [State.userMode, State.s0_eq] at huser
  by_cases hk : k = 0
  · subst hk
    rw [State.getS_setS_self] at huser
    exact ⟨rfl, huser⟩
  · rw [State.getS_setS_ne (Ne.symm hk), ← State.s0_eq, ← State.userMode, hkernel] at huser
    cases huser

/-- Settles O52: the poll never enters user mode, so the instruction did, and of those only WSR and IRET can. -/
theorem userModeIsEnteredOnlyByWsrOrIret : Obligations.UserModeIsEnteredOnlyByWsrOrIret := by
  intro s u hkernel hstep huser
  obtain ⟨-, w, i, t, hfetch, hdecode, hexec, hboundary⟩ := step_cases hstep
  have htuser : t.userMode = true := by
    obtain ⟨-, rfl⟩ | ⟨-, hpoll⟩ := hboundary
    · exact huser
    · exact userMode_of_poll_forceX0 hpoll huser
  refine ⟨w, i, hfetch, hdecode, ?_⟩
  obtain hkeep | hvector | ⟨rA, i22, k, rfl, -, hindex, rfl⟩ | ⟨rfl, -, rfl⟩ := exec_privilege_cases hexec
  · rw [userMode_congr hkeep.sr, State.advancePc_userMode, hkernel] at htuser
    cases htuser
  · cases htuser.symm.trans hvector.kernel
  · obtain ⟨rfl, hbit⟩ := userMode_setS (s := s.advancePc) hkernel htuser
    exact .inl ⟨rA, i22, rfl, BitVec.eq_of_toNat_eq hindex, hbit⟩
  · rw [State.userMode, returnFromInterrupt_s0] at htuser
    exact .inr ⟨rfl, htuser⟩

/-- Settles O43: the trap clears Interrupts, so the poll at its boundary is masked. -/
theorem noPollDeliveryAfterATrap : Obligations.NoPollDeliveryAfterATrap := by
  intro a w i17 s hrun hset hready
  obtain ⟨t, hexec, hentered⟩ := jalrTrapsWithInterruptsOn i17 s hset hready
  have hmasked : t.forceX0.interrupts = false := hentered.masked
  refine ⟨t, hexec, ?_⟩
  rw [hexec]
  exact boundary_poll_ok (hentered.status.trans hrun) (poll_masked hmasked)

end Sys2Proof.Machine
end

section
/-! PROOFS. The family 70_reset_and_hazards.md: the registers after reset (R700). -/

namespace Sys2Proof.Machine

/-- The reset state is the boot state of an empty image, with no TTY and nothing scheduled. -/
theorem reset_eq_bootState : State.reset = bootState [] false [] [] := rfl

theorem bootState_s0 (image : List Word) (attached : Bool) (nowSteps : List Nat) (replies : List TtyReply) :
    (bootState image attached nowSteps replies).s0 = 0 := by
  rw [State.s0_eq, bootState_getS]

/-- The core starts in kernel mode. -/
theorem bootState_userMode (image : List Word) (attached : Bool) (nowSteps : List Nat) (replies : List TtyReply) :
    (bootState image attached nowSteps replies).userMode = false := by
  rw [State.userMode, bootState_s0]
  rfl

/-- The core starts with interrupts off, so with the poll masked. -/
theorem bootState_interrupts (image : List Word) (attached : Bool) (nowSteps : List Nat) (replies : List TtyReply) :
    (bootState image attached nowSteps replies).interrupts = false := by
  rw [State.interrupts, bootState_s0]
  rfl

/-- Settles O56: the reset state is itself a boot state, and no boot state's registers depend on its parameters. -/
theorem resetRegisters : Obligations.ResetRegisters := by
  intro image attached nowSteps replies s hs
  have hboot : ∃ image attached nowSteps replies, s = bootState image attached nowSteps replies := by
    obtain rfl | rfl := hs
    · exact ⟨[], false, [], [], reset_eq_bootState⟩
    · exact ⟨image, attached, nowSteps, replies, rfl⟩
  obtain ⟨image, attached, nowSteps, replies, rfl⟩ := hboot
  exact ⟨bootState_getX _ _ _ _, rfl, bootState_getS _ _ _ _, rfl, rfl, rfl, rfl, rfl, rfl, rfl, rfl, rfl,
    bootState_userMode _ _ _ _, bootState_paging _ _ _ _, bootState_interrupts _ _ _ _⟩

end Sys2Proof.Machine
end

section
/-! PROOFS. Decoding an encoded instruction and the ranges of the decoded immediates (R305 to R308), the bits that
nothing looks at (R309), and sample words. -/

namespace Sys2Proof

/-! ## Decoding the word of an instruction -/

/-- A word built in the RRI layout decodes to its own operands, when its opcode has that layout (R303). -/
theorem decode_encodeRRI {op : BitVec 5} {make : Reg → Reg → Word → Instr} {rA rB : Reg} {i17 : Word}
    (hdecode : ∀ {w : Word}, (opField w).toNat = op.toNat →
      decode w = .ok (make (regField w 22) (regField w 17) (i17Field w)))
    (h : i17InRange i17 = true) : decode (encodeRRI op rA rB i17) = .ok (make rA rB i17) := by
  obtain ⟨hop, hA, hB, hi17⟩ := splitFields_encodeRRI op rA rB i17
  rw [hdecode (congrArg BitVec.toNat hop), hA, hB, hi17, i17Field_of_inRange h]

/-- A word built in the RI layout decodes to its own operands, when its opcode has that layout (R304). -/
theorem decode_encodeRI {op : BitVec 5} {make : Reg → Word → Instr} {rA : Reg} {i22 : Word}
    (hdecode : ∀ {w : Word}, (opField w).toNat = op.toNat → decode w = .ok (make (regField w 22) (i22Field w)))
    (h : i22InRange i22 = true) : decode (encodeRI op rA i22) = .ok (make rA i22) := by
  obtain ⟨hop, hA, hi22⟩ := splitFields_encodeRI op rA i22
  rw [hdecode (congrArg BitVec.toNat hop), hA, hi22, i22Field_of_inRange h]

/-- A word built in the RRR layout decodes to its own operands, when its opcode has that layout (R302). -/
theorem decode_encodeRRR {op : BitVec 5} {make : Reg → Reg → Reg → Instr} {rA rB rC : Reg}
    (hdecode : ∀ {w : Word}, (opField w).toNat = op.toNat →
      decode w = .ok (make (regField w 22) (regField w 17) (regField w 0))) :
    decode (encodeRRR op rA rB rC) = .ok (make rA rB rC) := by
  obtain ⟨hop, hA, hB, hC⟩ := splitFields_encodeRRR op rA rB rC
  rw [hdecode (congrArg BitVec.toNat hop), hA, hB, hC]

/-- Settles O1: one lemma for each format, with the decoder's equation for the opcode. IRET has no operands, so its
opcode alone decides. -/
theorem decodeOfEncode : Obligations.DecodeOfEncode := by
  intro i hwf
  cases i with
  | jalr rA rB i17 => exact decode_encodeRRI decode_op0 hwf
  | add rA rB rC => exact decode_encodeRRR decode_op1
  | addi rA rB i17 => exact decode_encodeRRI decode_op2 hwf
  | nand rA rB rC => exact decode_encodeRRR decode_op3
  | lui rA i22 => exact decode_encodeRI decode_op4 hwf
  | sw rA rB i17 => exact decode_encodeRRI decode_op5 hwf
  | lw rA rB i17 => exact decode_encodeRRI decode_op6 hwf
  | beq rA rB i17 => exact decode_encodeRRI decode_op7 hwf
  | wsr rA i22 => exact decode_encodeRI decode_op8 hwf
  | rsr rA i22 => exact decode_encodeRI decode_op9 hwf
  | iret => exact decode_op10 (congrArg BitVec.toNat Laws.OpcodeField.iret)

/-- Settles O6: the immediate is the sign-extended 17-bit field or the zero-extended 22-bit field, or there is none. -/
theorem decodedInstructionsAreWellFormed : Obligations.DecodedInstructionsAreWellFormed := by
  intro w i h
  rw [decode_eq] at h
  split at h <;> cases h
  case h_1 | h_3 | h_6 | h_7 | h_8 => exact i17InRange_i17Field w
  case h_5 | h_9 | h_10 => exact i22InRange_i22Field w
  case h_2 | h_4 | h_11 => rfl

/-- Settles O7: each word's opcode selects its equation, whose fields are then numbers. -/
theorem sampleWordsDecode : Obligations.SampleWordsDecode :=
  ⟨decode_op0 rfl, decode_op0 rfl, decode_op1 rfl, decode_op2 rfl, decode_op4 rfl, decode_op5 rfl, decode_op9 rfl,
    decode_op10 rfl, decode_reserved (by decide)⟩

/-! ## Bits that nothing looks at (R309) -/

/-- Numbers that agree from bit `m` on agree from every higher bit on. -/
theorem div_two_pow_congr {a b m n : Nat} (h : a / 2 ^ m = b / 2 ^ m) (hmn : m ≤ n) : a / 2 ^ n = b / 2 ^ n := by
  obtain ⟨k, rfl⟩ := Nat.exists_eq_add_of_le hmn
  rw [Nat.pow_add, ← Nat.div_div_eq_div_mul, h, Nat.div_div_eq_div_mul]

/-- An RRR word decodes by its opcode, rA, rB and rC: bits 16..5 are not looked at. -/
theorem decode_rrr_congr {w v : Word} (hop : w.toNat / 2 ^ 27 = 1 ∨ w.toNat / 2 ^ 27 = 3)
    (hhigh : w.toNat / 2 ^ 17 = v.toNat / 2 ^ 17) (hlow : w.toNat % 32 = v.toNat % 32) : decode w = decode v := by
  have hopField : (opField w).toNat = (opField v).toNat := by
    rw [toNat_opField, toNat_opField, div_two_pow_congr hhigh (by omega)]
  have hA : regField w 22 = regField v 22 :=
    Fin.ext (by rw [val_regField, val_regField, div_two_pow_congr hhigh (by omega)])
  have hB : regField w 17 = regField v 17 := Fin.ext (by rw [val_regField, val_regField, hhigh])
  have hC : regField w 0 = regField v 0 :=
    Fin.ext (by rw [val_regField, val_regField, Nat.pow_zero, Nat.div_one, Nat.div_one, hlow])
  rw [← toNat_opField] at hop
  obtain hadd | hnand := hop
  · rw [decode_op1 hadd, decode_op1 (hopField ▸ hadd), hA, hB, hC]
  · rw [decode_op3 hnand, decode_op3 (hopField ▸ hnand), hA, hB, hC]

/-- Any word with opcode 10 is IRET: bits 26..0 are not looked at. -/
theorem decode_iret {w : Word} (hop : w.toNat / 2 ^ 27 = 10) : decode w = .ok .iret :=
  decode_op10 ((toNat_opField w).trans hop)

namespace Machine

/-- Words that agree modulo 2^n have the same n low bits. -/
theorem getLsbD_congr_of_mod {v v' : Word} {n k : Nat} (h : v.toNat % 2 ^ n = v'.toNat % 2 ^ n) (hk : k < n) :
    v.getLsbD k = v'.getLsbD k := by
  have hbit (u : Word) : u.getLsbD k = (u.toNat % 2 ^ n).testBit k := by
    rw [Nat.testBit_mod_two_pow, decide_eq_true hk, Bool.true_and, BitVec.testBit_toNat]
  rw [hbit v, hbit v', h]

/-- An entry's flags are in its three low bits (R210). -/
theorem pteFlags_congr {pte pte' : Word} (h : pte.toNat % 2 ^ 3 = pte'.toNat % 2 ^ 3) : pteFlags pte = pteFlags pte' := by
  have hbit {k : Nat} (hk : k < 3) : pte.getLsbD k = pte'.getLsbD k := getLsbD_congr_of_mod h hk
  rw [pteFlags, hbit (k := 2) (by omega), hbit (k := 1) (by omega), hbit (k := 0) (by omega), pteFlags]

/-- An entry's page base is in its 22 high bits (R212). -/
theorem translatedAddress_congr {pte pte' : Word} (h : pte.toNat / 1024 = pte'.toNat / 1024) (addr : Word) :
    translatedAddress pte addr = translatedAddress pte' addr := by
  apply BitVec.eq_of_toNat_eq
  rw [toNat_translatedAddress, toNat_translatedAddress, pagedAddress, h, pagedAddress]

/-- Settles O5: the decoder, the link and jump, and the translation each depend only on the fields they read. -/
theorem ignoredBitsChangeNothing : Obligations.IgnoredBitsChangeNothing := by
  refine ⟨fun w v _ hop hhigh hlow => decode_rrr_congr hop hhigh hlow, fun w v hw hv => ?_,
    fun rA rB i17 j17 s hlink => ?_, fun pte pte' addr hbase hflags => ?_⟩
  · rw [decode_iret hw, decode_iret hv]
  · rw [exec_jalr_link hlink, exec_jalr_link hlink]
  · exact ⟨pteFlags_congr hflags, translatedAddress_congr hbase addr⟩

end Machine

end Sys2Proof
end

section
/-! PROOFS. The faults of a reserved opcode and of a load or store (R310, R460, R461), the frame of memory, and the
invariant after reset. -/

namespace Sys2Proof.Machine

/-! ## Faults -/

/-- A fetched word that decodes to no instruction stops the step with the word and its address (R310). -/
theorem step_decode_error {s : State} {w : Word} {e : DecodeError} (hrun : s.status = .running)
    (hfetch : fetch s = .ok w) (hdecode : decode w = .error e) : step s = .fault (.illegalOpcode s.pc w) := by
  simp only [step, hrun, hfetch, hdecode]

/-- Settles O4: the decoder rejects the opcodes from 11 on, and the step turns that into IllegalOpcode. -/
theorem reservedOpcodeFaults : Obligations.ReservedOpcodeFaults := by
  intro s w hrun hfetch hreserved
  rw [← toNat_opField] at hreserved
  exact step_decode_error hrun hfetch (decode_reserved hreserved)

/-- LW raises what its access raises (R461). -/
theorem exec_lw_error {rA rB : Reg} {i17 : Word} {s : State} {r : Raise}
    (haccess : access s (s.getX rB + i17) .load = .error r) :
    exec (.lw rA rB i17) s = .fault (r.toFault (s.pc - 1) none) := by
  simp only [exec, execLw, effectiveAddress, memRead_error haccess, raiseIn]

/-- SW raises what its access raises (R460). -/
theorem exec_sw_error {rA rB : Reg} {i17 : Word} {s : State} {r : Raise}
    (haccess : access s (s.getX rB + i17) .store = .error r) :
    exec (.sw rA rB i17) s = .fault (r.toFault (s.pc - 1) none) := by
  simp only [exec, execSw, effectiveAddress, memWrite_error haccess, outcomeIn, raiseIn]

/-- Settles O16: both pass their access's raise on, with the address of the instruction. -/
theorem lwSwRaiseTheAccessFault : Obligations.LwSwRaiseTheAccessFault :=
  fun _ _ _ _ _ => ⟨exec_lw_error, exec_sw_error⟩

/-! ## Memory and the invariant -/

/-- Settles O53: a step that changes memory runs a SW, and a byte it changes lies in the word that the SW writes. -/
theorem onlySwChangesMemory : Obligations.OnlySwChangesMemory := by
  intro s t a hstep hchanged
  obtain hkeep | ⟨w, rA, rB, i17, p, hfetch, hdecode, haccess, hwrite⟩ := step_mem_cases hstep
  · exact absurd (by rw [hkeep]) hchanged
  · rw [hwrite] at hchanged
    exact ⟨w, rA, rB, i17, p, hfetch, hdecode, haccess, Memory.in_word_of_readByte_writeWord_ne hchanged⟩

/-- A boot state meets the invariant, also with an image too long for M, which is cut. -/
theorem bootState_inv (image : List Word) (attached : Bool) (nowSteps : List Nat) (replies : List TtyReply) :
    (bootState image attached nowSteps replies).Inv where
  memory := Memory.wf_place (by rw [Nat.zero_add]; exact List.length_take_le _ _) rfl
  zero := bootState_getX image attached nowSteps replies 0
  clock := nofun

/-- Settles O49: the reset state is a boot state too. -/
theorem resetMeetsInvariant : Obligations.ResetMeetsInvariant :=
  ⟨reset_eq_bootState ▸ bootState_inv [] false [] [], bootState_inv⟩

end Sys2Proof.Machine
end
